-- ==== Sys2Proof/Word.lean ====
section
/-!
DEFINITION. Sys2Proof/Word.lean: the word types of the RDSC (spec 00_scope R11, R12, R15).
-/
namespace Sys2Proof

/-- A command word or a host read word, bit 0 the least significant (R11, R12, R70). -/
abbrev Word := BitVec 64

/-- A bus byte or an opcode (R11). -/
abbrev Byte := BitVec 8

/-- A raw axis pattern, read as two's complement (R11, R25). -/
abbrev Half := BitVec 16

/-- A binary64 bit pattern: sign bit 63, biased exponent 62:52, fraction 51:0 (R15). -/
abbrev F64 := BitVec 64

end Sys2Proof
end

