-- ==== Sys2Proof/Syntax.lean ====
section
/-!
DEFINITION. Sys2Proof/Syntax.lean: the six commands of spec/opcode_table.json (spec 30_encoding R71 to R76).
-/
namespace Sys2Proof

/-- A command with its operands as R76 assembles them. -/
inductive Instr where
  /-- CFG, format C: the accelerometer and the gyroscope FS code (R72, R90). -/
  | cfg (afs gfs : BitVec 2)
  /-- LDA, format L: the bus status and the six bytes in bus arrival order (R74, R100). -/
  | lda (bst d0 d1 d2 d3 d4 d5 : Byte)
  /-- LDG, format L (R74, R101). -/
  | ldg (bst d0 d1 d2 d3 d4 d5 : Byte)
  /-- CVA, format N (R73, R130). -/
  | cva
  /-- CVG, format N (R73, R131). -/
  | cvg
  /-- SMP, format N (R73, R132). -/
  | smp
deriving DecidableEq, Repr

/-- Why a word is no command: the three kinds of reserved encoding of R78. The block itself reports one verdict,
`ILLEGAL_COMMAND`, for all three (R77). -/
inductive Illegal where
  /-- Opcode 0x00 or 0x07 to 0xFF. -/
  | reservedOpcode
  /-- A nonzero bit in a field marked "must be 0" (formats C and N). -/
  | reservedBits
  /-- `BST` 0x03 to 0xFF (format L). -/
  | reservedBusStatus
deriving DecidableEq, Repr

/-- The decoder's verdict on a word: one of the six commands, or `ILLEGAL_COMMAND` (R77). -/
inductive Verdict where
  | command (i : Instr)
  | illegal (why : Illegal)
deriving DecidableEq, Repr

end Sys2Proof
end

