-- ==== Sys2Proof/WellFormed.lean ====
section
/-!
DEFINITION. Sys2Proof/WellFormed.lean: which operands an encoding admits (spec 30_encoding R72 to R75). FS codes
and data bytes are legal at every value (R24, R75, R104); `BST` is legal up to 0x02 (R75).
-/
namespace Sys2Proof

/-- A bus status that R75 gives a meaning: 0x00, 0x01 or 0x02. -/
def busStatusOk (bst : Byte) : Bool := bst.toNat ≤ 2

/-- The operands are ones the encoding admits. -/
def WellFormed : Instr → Bool
  | .cfg _ _ => true
  | .lda bst _ _ _ _ _ _ => busStatusOk bst
  | .ldg bst _ _ _ _ _ _ => busStatusOk bst
  | .cva => true
  | .cvg => true
  | .smp => true

end Sys2Proof
end

