-- ==== Sys2Proof/Decode.lean ====
section
/-!
DEFINITION. Sys2Proof/Decode.lean: the decoder, total on all 2^64 words (spec 30_encoding R70 to R78), and the encoder
written from the same format tables (R72 to R74).
-/
namespace Sys2Proof

/-- `w[7:0]`, the opcode in every format (R70). -/
def opcodeOf (w : Word) : Byte := w.extractLsb' 0 8

/-- `w[15:8]`, the bus status of format L (R74). -/
def bstOf (w : Word) : Byte := w.extractLsb' 8 8

/-- `Di = w[16+8i+7 : 16+8i]`, byte i of the read in arrival order (R74). -/
def dataByte (w : Word) (i : Nat) : Byte := w.extractLsb' (16 + 8 * i) 8

/-- Format C: bits 63:12 must be 0 (R72, R77). -/
def decodeC (w : Word) : Verdict :=
  if w.extractLsb' 12 52 = 0#52 then .command (.cfg (w.extractLsb' 8 2) (w.extractLsb' 10 2))
  else .illegal .reservedBits

/-- Format N: bits 63:8 must be 0 (R73, R77). -/
def decodeN (w : Word) (i : Instr) : Verdict :=
  if w.extractLsb' 8 56 = 0#56 then .command i else .illegal .reservedBits

/-- Format L: `BST` at most 0x02; the data bytes are any (R74, R75, R77). -/
def decodeL (w : Word) (mk : Byte → Byte → Byte → Byte → Byte → Byte → Byte → Instr) : Verdict :=
  if busStatusOk (bstOf w) then
    .command (mk (bstOf w) (dataByte w 0) (dataByte w 1) (dataByte w 2) (dataByte w 3) (dataByte w 4) (dataByte w 5))
  else .illegal .reservedBusStatus

/-- The decoder of R77, by the opcode map of R71. -/
def decode (w : Word) : Verdict :=
  if opcodeOf w = 0x01#8 then decodeC w
  else if opcodeOf w = 0x02#8 then decodeL w .lda
  else if opcodeOf w = 0x03#8 then decodeL w .ldg
  else if opcodeOf w = 0x04#8 then decodeN w .cva
  else if opcodeOf w = 0x05#8 then decodeN w .cvg
  else if opcodeOf w = 0x06#8 then decodeN w .smp
  else .illegal .reservedOpcode

/-- The opcode of a command (R71). -/
def opcode : Instr → Byte
  | .cfg _ _ => 0x01#8
  | .lda _ _ _ _ _ _ _ => 0x02#8
  | .ldg _ _ _ _ _ _ _ => 0x03#8
  | .cva => 0x04#8
  | .cvg => 0x05#8
  | .smp => 0x06#8

/-- Format L laid out, bit 63 first: `D5 D4 D3 D2 D1 D0 BST OP` (R74). -/
def encodeL (op bst d0 d1 d2 d3 d4 d5 : Byte) : Word :=
  d5 ++ d4 ++ d3 ++ d2 ++ d1 ++ d0 ++ bst ++ op

/-- The word of a command (R72 to R74). -/
def encode : Instr → Word
  | .cfg afs gfs => 0#52 ++ gfs ++ afs ++ 0x01#8
  | .lda bst d0 d1 d2 d3 d4 d5 => encodeL 0x02#8 bst d0 d1 d2 d3 d4 d5
  | .ldg bst d0 d1 d2 d3 d4 d5 => encodeL 0x03#8 bst d0 d1 d2 d3 d4 d5
  | .cva => 0#56 ++ 0x04#8
  | .cvg => 0#56 ++ 0x05#8
  | .smp => 0#56 ++ 0x06#8

/-- The command of a verdict, if it is one. -/
def Verdict.instr? : Verdict → Option Instr
  | .command i => some i
  | .illegal _ => none

/-- The word whose low `nbits` bits are those of `w` and whose bits above are 0. -/
def tableWord (nbits w : Nat) : Word := BitVec.ofNat 64 (w % 2 ^ nbits)

/-- What the decoder reads from a word numbered as spec/opcode_table.json numbers it. -/
def decodeTableWord (nbits w : Nat) : Option Instr := (decode (tableWord nbits w)).instr?

end Sys2Proof
end

