-- ==== Sys2Proof/Config.lean ====
section
/-!
DEFINITION. Sys2Proof/Config.lean: what a build of the RDSC fixes (spec 00_scope R8 to R10), and the free values.
The numbers R8 gives this hardware, and R8's constraints, stand in Sys2Proof/Machine/Params.lean.
-/
namespace Sys2Proof

/-- `ACCEL_UNIT`: the unit of the accelerometer outputs (R9). -/
inductive AccelUnit where
  | mps2
  | g
deriving DecidableEq, Repr

/-- `CONV_MODE`: the arithmetic of the converter (R10). -/
inductive ConvMode where
  | twoStep
  | fused
deriving DecidableEq, Repr

/-- A table of four sensitivities, one for each FS code (R8, R24). -/
structure SensTable where
  fs0 : F64
  fs1 : F64
  fs2 : F64
  fs3 : F64
deriving DecidableEq, Repr

/-- The entry at an FS code (R24). -/
def SensTable.get (t : SensTable) (fs : BitVec 2) : F64 :=
  if fs = 0#2 then t.fs0 else if fs = 1#2 then t.fs1 else if fs = 2#2 then t.fs2 else t.fs3

/-- The build-time parameters of R8, fixed for the life of an instance. Statements quantify over them. -/
structure Params where
  sensA : SensTable
  sensG : SensTable
  grav : F64
  deg2rad : F64
  accelUnit : AccelUnit
  convMode : ConvMode
deriving DecidableEq, Repr

/-- FREE VALUE (log 8). The value written by a conversion in a build outside R8's constraints, where the spec
gives no value: first argument false for `cvtA`, true for `cvtG`, then the FS code and the count. -/
opaque Config.illegalBuild : Params → Bool → BitVec 2 → Int → F64

/-- FREE VALUE (log 9). `RNE64` of the real `±n/d` (in lowest terms) when it rounds past the largest finite binary64 value, where
R15 names no value. R125: no conversion of a legal build gets here. -/
opaque Config.roundOverflow : Bool → Nat → Nat → F64

end Sys2Proof
end

