-- ==== Sys2Proof/Machine/Float.lean ====
section
/-!
DEFINITION. Sys2Proof/Machine/Float.lean: the binary64 arithmetic the converter uses (spec 00_scope R15, 42_convert R128).
A binary64 pattern denotes the exact real `±num/den`. `/R` and `*R` compute the exact quotient or product of two such
fractions and round it once. Everything is `Nat` and `Int` arithmetic, so the kernel evaluates it.
-/
namespace Sys2Proof.Machine

/-- Bit 63, the sign (R15). -/
def signOf (b : F64) : Bool := b.getLsbD 63

/-- Bits 62:52, the biased exponent (R15). -/
def expOf (b : F64) : Nat := (b.extractLsb' 52 11).toNat

/-- Bits 51:0, the fraction (R15). -/
def fracOf (b : F64) : Nat := (b.extractLsb' 0 52).toNat

/-- The significand: with the hidden bit, unless the exponent field is 0 (PRESUMED, IEEE 754, log 10). -/
def sigOf (b : F64) : Nat := if expOf b = 0 then fracOf b else 2 ^ 52 + fracOf b

/-- Numerator of the magnitude `sig * 2^(E - 1075)`, E the biased exponent (1 where its field is 0). -/
def numOf (b : F64) : Nat := sigOf b * 2 ^ (max (expOf b) 1 - 1075)

/-- Denominator of the same magnitude. -/
def denOf (b : F64) : Nat := 2 ^ (1075 - max (expOf b) 1)

/-- `n/d` rounded to an integer, nearest, ties to even (R15). -/
def roundQuot (n d : Nat) : Nat :=
  if 2 * (n % d) < d then n / d
  else if d < 2 * (n % d) then n / d + 1
  else n / d + n / d % 2

/-- The exponent of the leading bit: the e with `2^e ≤ n/d < 2^(e+1)`, for positive n and d. -/
def floorLog2 (n d : Nat) : Int :=
  let e := (n.log2 : Int) - (d.log2 : Int)
  if n * 2 ^ (-e).toNat < d * 2 ^ e.toNat then e - 1 else e

/-- The exponent of the unit in the last place of the binary64 values around `n/d`: 53 significant bits, and
never below the smallest subnormal (log 10). -/
def ulpExp (n d : Nat) : Int := max (floorLog2 n d - 52) (-1074)

/-- `n/d` in units of `2^e`, rounded to an integer. -/
def roundAt (e : Int) (n d : Nat) : Nat := roundQuot (n * 2 ^ (-e).toNat) (d * 2 ^ e.toNat)

/-- The exponent and fraction fields (bits 62:0) of `RNE64(n/d)`. A significand that rounds up to `2^53` carries
into the exponent field by the sum. -/
def rneMag (n d : Nat) : Nat := (ulpExp n d + 1074).toNat * 2 ^ 52 + roundAt (ulpExp n d) n d

/-- `RNE64(±n/d)` (R15). Zero is +0.0 (R126, log 9); past the largest finite value R15 names none (log 9). -/
def roundTo (neg : Bool) (n d : Nat) : F64 :=
  if n = 0 then 0#64
  else if rneMag n d < 0x7FF0000000000000 then BitVec.ofBool neg ++ BitVec.ofNat 63 (rneMag n d)
  else Config.roundOverflow neg (n / n.gcd d) (d / n.gcd d)

/-- `f64(r)`: the binary64 value of an integer (R15). -/
def f64 (r : Int) : F64 := roundTo (decide (r < 0)) r.natAbs 1

/-- `a /R b = RNE64(a / b)` (R15). -/
def divR (a b : F64) : F64 := roundTo (signOf a ^^ signOf b) (numOf a * denOf b) (denOf a * numOf b)

/-- `a *R b = RNE64(a × b)` (R15). -/
def mulR (a b : F64) : F64 := roundTo (signOf a ^^ signOf b) (numOf a * numOf b) (denOf a * denOf b)

/-- `1.0`. -/
def one64 : F64 := 0x3FF0000000000000#64

/-- The shift path of R128 for a sensitivity `2^k`: "f64(r) with k subtracted from its exponent". Zero has no
exponent to subtract from and stays zero (log 22). `/R` gives the same bits (R128), so no conversion selects a path. -/
def shiftQuot (r : Int) (k : Nat) : F64 := if r = 0 then 0#64 else f64 r - BitVec.ofNat 64 (k * 2 ^ 52)

end Sys2Proof.Machine
end

