-- ==== Sys2Proof/Machine/Params.lean ====
section
/-!
DEFINITION. Sys2Proof/Machine/Params.lean: the parameter values and constraints of spec 00_scope R8.
-/
namespace Sys2Proof.Machine

/-- The values of R8 for this hardware. Only `SENS_A[3]`, `GRAV` and `DEG2RAD` come from the spec's source; the seven
other sensitivities are general knowledge (I1, log 2), so statements quantify over `Params`. -/
def defaultParams : Params where
  sensA := ⟨0x40D0000000000000#64, 0x40C0000000000000#64, 0x40B0000000000000#64, 0x40A0000000000000#64⟩
  sensG := ⟨0x4060600000000000#64, 0x4050600000000000#64, 0x4040666666666666#64, 0x4030666666666666#64⟩
  grav := 0x40239D013A92A305#64
  deg2rad := 0x3F91DF46A2529D39#64
  accelUnit := .mps2
  convMode := .twoStep

/-- A positive binary64 value in [1.0, 32768.0] (R8). -/
def sensOk (b : F64) : Bool := !signOf b && denOf b ≤ numOf b && numOf b ≤ 2 ^ 15 * denOf b

/-- A positive binary64 value in [2^-16, 2^16] (R8). -/
def multiplierOk (b : F64) : Bool := !signOf b && denOf b ≤ 2 ^ 16 * numOf b && numOf b ≤ 2 ^ 16 * denOf b

/-- All four sensitivities are in range. -/
def tableOk (t : SensTable) : Bool := sensOk t.fs0 && sensOk t.fs1 && sensOk t.fs2 && sensOk t.fs3

/-- The constraints of R8 on a build. -/
def legalParams (p : Params) : Bool := tableOk p.sensA && tableOk p.sensG && multiplierOk p.grav && multiplierOk p.deg2rad

end Sys2Proof.Machine
end

