-- ==== Sys2Proof/Machine/State.lean ====
section
/-!
DEFINITION. Sys2Proof/Machine/State.lean: the state of one RDSC instance (spec 10_state), the host's side of its two ports,
and the state after reset (spec 70_reset_and_hazards R180). The block has no memory and no program counter (R21, R53),
so there is no list of memory cells here.
-/
namespace Sys2Proof.Machine

/-- `STATE`, the driver state machine; the 2-bit value 3 is reserved and never written (R22, R39). -/
inductive DriverState where
  /-- `UNINIT`, code 0. -/
  | uninit
  /-- `CONFIGURED`, code 1. -/
  | configured
  /-- `SAMPLING`, code 2. -/
  | sampling
deriving DecidableEq, Repr

/-- The result codes of R150; codes 7 to 15 are never produced (I10). -/
inductive ErrCode where
  /-- 0 `OK`. -/
  | ok
  /-- 1 `ILLEGAL_COMMAND`. -/
  | illegalCommand
  /-- 2 `NOT_INITIALIZED`. -/
  | notInitialized
  /-- 3 `CONFIG_LOCKED`. -/
  | configLocked
  /-- 4 `BUS_ADDR`. -/
  | busAddr
  /-- 5 `BUS_READ`. -/
  | busRead
  /-- 6 `NO_DATA`. -/
  | noData
deriving DecidableEq, Repr

/-- A group: A (accelerometer) or G (gyroscope) (R17). -/
inductive Group where
  | accel
  | gyro
deriving DecidableEq, Repr

/-- A file of three registers, one for each axis: index 0 is x, 1 is y, 2 is z (R25, R26). -/
structure Triple (w : Nat) where
  x : BitVec w
  y : BitVec w
  z : BitVec w
deriving DecidableEq, Repr

/-- The registers and flags of one group. -/
structure GroupRegs where
  /-- `ACC_FS` or `GYR_FS` (R23). -/
  fs : BitVec 2
  /-- `RAW_A[0..2]` or `RAW_G[0..2]` (R25). -/
  raw : Triple 16
  /-- `LOADED_A` or `LOADED_G` (R27). -/
  loaded : Bool
  /-- `FRESH_A` or `FRESH_G` (R28). -/
  fresh : Bool
  /-- `OUT_A[0..2]` or `OUT_G[0..2]`, binary64 patterns (R26). -/
  out : Triple 64
  /-- `OUTV_A` or `OUTV_G` (R29). -/
  outv : Bool
deriving DecidableEq, Repr

/-- What the host does next (R14, R20): the host's command sequence is an input of the model, not state of the block. -/
inductive HostEvent where
  /-- `CmdIssue(w)` (R52). -/
  | cmd (w : Word)
  /-- `RegRead(i)` (R50). -/
  | read (i : BitVec 8)
  /-- Reset asserted between commands (R181). -/
  | reset
  /-- Reset asserted while the command `w` is in flight (R161, R182). -/
  | resetInFlight (w : Word)
  /-- A second `CmdIssue(v)` while `w` is in flight, or a second issuer (R59, R188): refused. -/
  | overlap (w v : Word)
deriving DecidableEq, Repr

/-- What the port last answered the host. -/
inductive Response where
  /-- Nothing: after reset, and after an abandoned command (R161). -/
  | none
  /-- The result code of a `CmdIssue` (R52). -/
  | code (c : ErrCode)
  /-- The value of a `RegRead` (R50). -/
  | data (v : Word)
deriving DecidableEq, Repr

/-- One RDSC instance. The first four fields are the spec's state; `params`, `resp` and `script` are the model's own. -/
structure State where
  /-- `STATE` (R22). -/
  drv : DriverState
  /-- The accelerometer group's registers (R23 to R29). -/
  accel : GroupRegs
  /-- The gyroscope group's registers (R23 to R29). -/
  gyro : GroupRegs
  /-- `ERR`, the result code of the most recently completed command (R30). -/
  err : ErrCode
  /-- The build parameters of R8, which no step changes (log 1). -/
  params : Params
  /-- The port's last answer to the host (log 4). -/
  resp : Response
  /-- The host's actions still to come, the next one first (R20, R21, log 3). -/
  script : List HostEvent
deriving DecidableEq, Repr

/-- Why a step stops the machine with a fault. No error of the RDSC is fatal and it has no halted state (R159), so no
meaning and no step raises a fault, and the type has no constructor (safe). -/
inductive Fault where
deriving DecidableEq, Repr

/-- Why the model gives a step no meaning. -/
inductive Refusal where
  /-- The instruction has no meaning yet; raised by an arm of `exec` only (safe). -/
  | notModelled (mnemonic : String)
  /-- A second `CmdIssue` while one is in flight; raised by `step` on `HostEvent.overlap` (R59, R188, log 6; safe). -/
  | concurrentIssue
deriving DecidableEq, Repr

/-- A group's registers after reset: everything 0 (R180). -/
def GroupRegs.reset : GroupRegs where
  fs := 0#2
  raw := ⟨0#16, 0#16, 0#16⟩
  loaded := false
  fresh := false
  out := ⟨0#64, 0#64, 0#64⟩
  outv := false

/-- The machine right after reset (R180), of this hardware's build (R8), with nothing issued yet. -/
def State.reset : State where
  drv := .uninit
  accel := GroupRegs.reset
  gyro := GroupRegs.reset
  err := .ok
  params := defaultParams
  resp := .none
  script := []

end Sys2Proof.Machine
end

