-- ==== Sys2Proof/Machine/Operands.lean ====
section
/-!
DEFINITION. Sys2Proof/Machine/Operands.lean: the two's-complement readings of spec 00_scope R13 and the pair decoder of
spec 41_decode R102. FS codes, `BST` and data bytes are used as unsigned fields with no extension or scaling (R76), which
the decoder's field extraction already is.
-/
namespace Sys2Proof.Machine

/-- `s16(v)`: a 16-bit pattern as a two's-complement integer (R13). -/
def s16 (v : Half) : Int := if v.getLsbD 15 then (v.toNat : Int) - 65536 else (v.toNat : Int)

/-- `u16(n) = n mod 65536`: the 16-bit pattern of an integer in [-32768, 32767] (R13). -/
def u16 (n : Int) : Half := BitVec.ofNat 16 (n % 65536).toNat

/-- `u16(n)[15:8]` (R81). -/
def hi8 (v : Half) : Byte := v.extractLsb' 8 8

/-- `u16(n)[7:0]` (R81). -/
def lo8 (v : Half) : Byte := v.extractLsb' 0 8

/-- `dec16(h, l) = (zext_16(h) << 8) | zext_16(l)` (R102): the endian swap of R63. -/
def dec16 (h l : Byte) : Half := (h.zeroExtend 16 <<< 8) ||| l.zeroExtend 16

/-- The three axes of a group read: axis k from bytes `D(2k)` and `D(2k+1)` (R62, R106). -/
def decodeAxes (d0 d1 d2 d3 d4 d5 : Byte) : Triple 16 := ⟨dec16 d0 d1, dec16 d2 d3, dec16 d4 d5⟩

end Sys2Proof.Machine
end

