-- ==== Sys2Proof/Machine/Convert.lean ====
section
/-!
DEFINITION. Sys2Proof/Machine/Convert.lean: the scale-to-float converter of spec 42_convert R120 to R124.
-/
namespace Sys2Proof.Machine

/-- `KA[fs] = GRAV /R SENS_A[fs]` (R123). -/
def fusedKA (p : Params) (fs : BitVec 2) : F64 := divR p.grav (p.sensA.get fs)

/-- `KA1[fs] = 1.0 /R SENS_A[fs]` (R123). -/
def fusedKA1 (p : Params) (fs : BitVec 2) : F64 := divR one64 (p.sensA.get fs)

/-- `KG[fs] = DEG2RAD /R SENS_G[fs]` (R123). -/
def fusedKG (p : Params) (fs : BitVec 2) : F64 := divR p.deg2rad (p.sensG.get fs)

/-- `cvtA(r, fs)` (R121), for a build that meets R8. -/
def cvtALegal (p : Params) (fs : BitVec 2) (r : Int) : F64 :=
  match p.accelUnit, p.convMode with
  | .mps2, .twoStep => mulR (divR (f64 r) (p.sensA.get fs)) p.grav
  | .mps2, .fused => mulR (f64 r) (fusedKA p fs)
  | .g, .twoStep => divR (f64 r) (p.sensA.get fs)
  | .g, .fused => mulR (f64 r) (fusedKA1 p fs)

/-- `cvtG(r, fs)` (R122), for a build that meets R8. -/
def cvtGLegal (p : Params) (fs : BitVec 2) (r : Int) : F64 :=
  match p.convMode with
  | .twoStep => mulR (divR (f64 r) (p.sensG.get fs)) p.deg2rad
  | .fused => mulR (f64 r) (fusedKG p fs)

/-- `cvtA(r, fs)` (R121). R8 rules out an illegal build, so there the value is free (log 8). -/
def cvtA (p : Params) (fs : BitVec 2) (r : Int) : F64 :=
  if legalParams p then cvtALegal p fs r else Config.illegalBuild p false fs r

/-- `cvtG(r, fs)` (R122); free in an illegal build (log 8). -/
def cvtG (p : Params) (fs : BitVec 2) (r : Int) : F64 :=
  if legalParams p then cvtGLegal p fs r else Config.illegalBuild p true fs r

/-- The conversion of a group (R121, R122). -/
def cvt (g : Group) (p : Params) (fs : BitVec 2) (r : Int) : F64 :=
  match g with
  | .accel => cvtA p fs r
  | .gyro => cvtG p fs r

/-- `OUT[k] = cvt(s16(RAW[k]), FS)` for each axis, each lane on its own (R124). -/
def cvtTriple (g : Group) (p : Params) (fs : BitVec 2) (t : Triple 16) : Triple 64 :=
  ⟨cvt g p fs (s16 t.x), cvt g p fs (s16 t.y), cvt g p fs (s16 t.z)⟩

end Sys2Proof.Machine
end

