-- ==== Sys2Proof/Machine/Flags.lean ====
section
/-!
DEFINITION. Sys2Proof/Machine/Flags.lean: the flag updates of spec 10_state R27 to R29 and R40, and the numeric codes of the
enumerated fields (R22, R32, R150).
-/
namespace Sys2Proof.Machine

/-- The 2-bit code of `STATE` (R22). -/
def driverCode : DriverState → BitVec 2
  | .uninit => 0#2
  | .configured => 1#2
  | .sampling => 2#2

/-- The 4-bit code of `ERR` (R150). -/
def errCode : ErrCode → BitVec 4
  | .ok => 0#4
  | .illegalCommand => 1#4
  | .notInitialized => 2#4
  | .configLocked => 3#4
  | .busAddr => 4#4
  | .busRead => 5#4
  | .noData => 6#4

/-- `CONFIG[4]`: 0 is `MPS2`, 1 is `G` (R32). -/
def unitBit : AccelUnit → Bool
  | .mps2 => false
  | .g => true

/-- `CONFIG[5]`: 0 is `TWO_STEP`, 1 is `FUSED` (R32). -/
def modeBit : ConvMode → Bool
  | .twoStep => false
  | .fused => true

/-- The sampling transition of a successful command: `CONFIGURED` goes to `SAMPLING`, else no change (R40). -/
def enterSampling : DriverState → DriverState
  | .uninit => .uninit
  | .configured => .sampling
  | .sampling => .sampling

/-- A successful load: the whole raw file, `LOADED <- 1`, `FRESH <- 1` (R25, R27, R28). -/
def storeRaw (t : Triple 16) (r : GroupRegs) : GroupRegs := { r with raw := t, loaded := true, fresh := true }

/-- `FRESH <- 0` (R28): by a load with a bus error, and by a successful SMP. -/
def clearFresh (r : GroupRegs) : GroupRegs := { r with fresh := false }

/-- A conversion's result: the whole output file, `OUTV <- 1` (R26, R29). -/
def storeOut (t : Triple 64) (r : GroupRegs) : GroupRegs := { r with out := t, outv := true }

end Sys2Proof.Machine
end

