-- ==== Sys2Proof/Machine/Ops.lean ====
section
/-!
DEFINITION. Sys2Proof/Machine/Ops.lean: the named operations over the state: ending a command, raising an error (the RDSC's
only exception mechanism, spec 60_exceptions R150 to R157; there is nothing to return from, R157), loading and converting a
group, reset, and the register read port (spec 20_memory R50).
-/
namespace Sys2Proof.Machine

/-- The three outcomes of a step of this machine. -/
abbrev Result := Host.Outcome State Fault Refusal

/-- A group's registers. -/
def regs (g : Group) (s : State) : GroupRegs :=
  match g with
  | .accel => s.accel
  | .gyro => s.gyro

/-- Write a group's registers. -/
def setRegs (g : Group) (r : GroupRegs) (s : State) : State :=
  match g with
  | .accel => { s with accel := r }
  | .gyro => { s with gyro := r }

/-- A command ends: `ERR <- c`, and the response to `CmdIssue` is `c` (R52, R150). -/
def finish (c : ErrCode) (s : State) : State := { s with err := c, resp := .code c }

/-- `raise Error(c)`: the command stops here and writes its code; nothing is saved, masked or vectored (R152, R155). -/
def raise (c : ErrCode) (s : State) : Result := .next (finish c s)

/-- A sampling command completes with `OK`: the sampling transition, then `ERR <- OK` (R40). -/
def complete (s : State) : Result := .next (finish .ok { s with drv := enterSampling s.drv })

/-- A configuration command (R90). -/
def configure (afs gfs : BitVec 2) (s : State) : Result :=
  if s.drv = .uninit then
    .next (finish .ok { s with
      drv := .configured
      accel := { s.accel with fs := afs }
      gyro := { s.gyro with fs := gfs } })
  else raise .configLocked s

/-- A load of group g (R100, R101, R103), its errors in the order of R156. A reserved `BST`, which the decoder lets
no word carry, is `ILLEGAL_COMMAND` as in R100's error list (log 12). -/
def loadGroup (g : Group) (bst : Byte) (t : Triple 16) (s : State) : Result :=
  if busStatusOk bst = false then raise .illegalCommand s
  else if s.drv = .uninit then raise .notInitialized s
  else if bst = 0x01#8 then raise .busAddr (setRegs g (clearFresh (regs g s)) s)
  else if bst = 0x02#8 then raise .busRead (setRegs g (clearFresh (regs g s)) s)
  else complete (setRegs g (storeRaw t (regs g s)) s)

/-- The output file of group g from its raw file at its active range (R120, R124). -/
def converted (g : Group) (s : State) : Triple 64 := cvtTriple g s.params (regs g s).fs (regs g s).raw

/-- Write the output file of group g and set its `OUTV`. -/
def writeOut (g : Group) (s : State) : State := setRegs g (storeOut (converted g s) (regs g s)) s

/-- A conversion of group g (R130, R131). -/
def convertGroup (g : Group) (s : State) : Result :=
  if s.drv = .uninit then raise .notInitialized s
  else if (regs g s).loaded = false then raise .noData s
  else complete (writeOut g s)

/-- `FRESH <- 0` in both groups. -/
def clearBothFresh (s : State) : State := { s with accel := clearFresh s.accel, gyro := clearFresh s.gyro }

/-- One sample: both groups converted as one (R132). -/
def sampleBoth (s : State) : Result :=
  if s.drv = .uninit then raise .notInitialized s
  else if s.accel.fresh = false ∨ s.gyro.fresh = false then raise .noData s
  else complete (clearBothFresh (writeOut .gyro (writeOut .accel s)))

/-- `STATUS` (R31), bit 63 first. -/
def statusWord (s : State) : Word :=
  0#50 ++ BitVec.ofBool s.gyro.outv ++ BitVec.ofBool s.accel.outv
    ++ BitVec.ofBool s.gyro.fresh ++ BitVec.ofBool s.accel.fresh
    ++ BitVec.ofBool s.gyro.loaded ++ BitVec.ofBool s.accel.loaded
    ++ errCode s.err ++ 0#2 ++ driverCode s.drv

/-- `CONFIG` (R32), bit 63 first. -/
def configWord (s : State) : Word :=
  0#58 ++ BitVec.ofBool (modeBit s.params.convMode) ++ BitVec.ofBool (unitBit s.params.accelUnit)
    ++ s.gyro.fs ++ s.accel.fs

/-- `RAWREG` of a raw file: `{0x0000, z, y, x}` (R34). -/
def packRaw (t : Triple 16) : Word := 0#16 ++ t.z ++ t.y ++ t.x

/-- `RegRead(i)`: the read index map (R50, R31 to R35). -/
def regRead (s : State) (i : BitVec 8) : Word :=
  if i = 0#8 then statusWord s
  else if i = 1#8 then configWord s
  else if i = 2#8 then s.accel.out.x
  else if i = 3#8 then s.accel.out.y
  else if i = 4#8 then s.accel.out.z
  else if i = 5#8 then s.gyro.out.x
  else if i = 6#8 then s.gyro.out.y
  else if i = 7#8 then s.gyro.out.z
  else if i = 8#8 then packRaw s.accel.raw
  else if i = 9#8 then packRaw s.gyro.raw
  else 0#64

/-- The host reads a register: it gets the value, and nothing of the block changes (R50, R51). -/
def readPort (i : BitVec 8) (s : State) : Result := .next { s with resp := .data (regRead s i) }

/-- Reset: every piece of state as R180, no response pending; the build parameters are not changed (R181), and what the
host does afterwards is the host's (log 7). -/
def resetBlock (s : State) : Result := .next { State.reset with params := s.params, script := s.script }

end Sys2Proof.Machine
end

