-- ==== Sys2Proof/Machine/Configure.lean ====
section
/-!
DEFINITION. Sys2Proof/Machine/Configure.lean: the meaning of CFG (spec 40_config).
-/
namespace Sys2Proof.Machine

/-- CFG (R90). -/
def execCfg (afs gfs : BitVec 2) (s : State) : Result := configure afs gfs s

end Sys2Proof.Machine
end

