-- ==== Sys2Proof/Machine/Load.lean ====
section
/-!
DEFINITION. Sys2Proof/Machine/Load.lean: the meanings of LDA and LDG (spec 41_decode).
-/
namespace Sys2Proof.Machine

/-- LDA (R100). -/
def execLda (bst d0 d1 d2 d3 d4 d5 : Byte) (s : State) : Result :=
  loadGroup .accel bst (decodeAxes d0 d1 d2 d3 d4 d5) s

/-- LDG (R101). -/
def execLdg (bst d0 d1 d2 d3 d4 d5 : Byte) (s : State) : Result :=
  loadGroup .gyro bst (decodeAxes d0 d1 d2 d3 d4 d5) s

end Sys2Proof.Machine
end

