-- ==== Sys2Proof/Machine/Sample.lean ====
section
/-!
DEFINITION. Sys2Proof/Machine/Sample.lean: the meanings of CVA, CVG and SMP (spec 42_convert).
-/
namespace Sys2Proof.Machine

/-- CVA (R130). -/
def execCva (s : State) : Result := convertGroup .accel s

/-- CVG (R131). -/
def execCvg (s : State) : Result := convertGroup .gyro s

/-- SMP (R132). -/
def execSmp (s : State) : Result := sampleBoth s

end Sys2Proof.Machine
end

