-- ==== Sys2Proof/Machine/Dispatch.lean ====
section
/-!
DEFINITION. Sys2Proof/Machine/Dispatch.lean: one arm for each command of spec/opcode_table.json.
-/
namespace Sys2Proof.Machine

-- The command rules of spec 40_config, 41_decode and 42_convert.
def exec (i : Instr) (s : State) : Host.Outcome State Fault Refusal :=
  match i with
  | .cfg afs gfs => Sys2Proof.Machine.execCfg afs gfs s
  | .lda bst d0 d1 d2 d3 d4 d5 => Sys2Proof.Machine.execLda bst d0 d1 d2 d3 d4 d5 s
  | .ldg bst d0 d1 d2 d3 d4 d5 => Sys2Proof.Machine.execLdg bst d0 d1 d2 d3 d4 d5 s
  | .cva => Sys2Proof.Machine.execCva s
  | .cvg => Sys2Proof.Machine.execCvg s
  | .smp => Sys2Proof.Machine.execSmp s

end Sys2Proof.Machine
end

