-- ==== Sys2Proof/Machine/Port.lean ====
section
/-!
DEFINITION. Sys2Proof/Machine/Port.lean: the command port (spec 20_memory R52) and one action of the host.
-/
namespace Sys2Proof.Machine

/-- `CmdIssue(w)`: decode, then run the command rule to completion (R52); a word that is no command writes
`ERR <- ILLEGAL_COMMAND` and nothing else, whatever the `STATE` (R151). -/
def cmdIssue (w : Word) (s : State) : Result :=
  match decode w with
  | .command i => exec i s
  | .illegal _ => raise .illegalCommand s

/-- The block's reaction to one action of the host. A reset while a command is in flight leaves none of the command's
writes and no response (R161). -/
def hostAction (e : HostEvent) (s : State) : Result :=
  match e with
  | .cmd w => cmdIssue w s
  | .read i => readPort i s
  | .reset => resetBlock s
  | .resetInFlight _ => resetBlock s
  | .overlap _ _ => .refused .concurrentIssue

/-- The host takes its next action; with nothing left to do the block waits (R65, R181, log 5). -/
def nextAction (s : State) : Result :=
  match s.script with
  | [] => .next s
  | e :: rest => hostAction e { s with script := rest }

/-- The host issues `w` as its very next action (log 15). -/
def issueNext (w : Word) (s : State) : State := { s with script := .cmd w :: s.script }

end Sys2Proof.Machine
end

