-- ==== Sys2Proof/Machine/Step.lean ====
section
/-!
DEFINITION. Sys2Proof/Machine/Step.lean: one step of the machine.
-/
namespace Sys2Proof.Machine

/-- One step: the host's next action, run to completion (spec 20_memory R55 to R57; 70_reset_and_hazards R189). -/
def step (s : State) : Host.Outcome State Fault Refusal := nextAction s

/-- `s` with the host issuing the table's word as its next command. -/
def State.withFetchWord (s : State) (nbits w : Nat) : State := issueNext (tableWord nbits w) s

end Sys2Proof.Machine
end

