-- ==== Sys2Proof/Machine/Asm.lean ====
section
/-!
DEFINITION. Sys2Proof/Machine/Asm.lean: the assembler of spec 30_encoding R80 and its pseudo-instructions R81, on lines of
characters. It takes no part in `step`: the block sees words only.
-/
namespace Sys2Proof.Machine

/-- One assembler line, with its numbers as written (R80, R81). -/
inductive AsmLine where
  /-- `cfg afs=<a>, gfs=<g>`. -/
  | cfg (a g : Int)
  /-- `init afs=<a>, gfs=<g>`, which expands to `cfg` (R81). -/
  | init (a g : Int)
  /-- `lda` or `ldg` with six bytes in arrival order, `BST` = 0. -/
  | load (grp : Group) (d0 d1 d2 d3 d4 d5 : Int)
  /-- `lda bst=<b>` or `ldg bst=<b>`, all bytes 0. -/
  | loadFailed (grp : Group) (b : Int)
  /-- `lda.i16` or `ldg.i16` with three signed values (R81). -/
  | loadI16 (grp : Group) (x y z : Int)
  | cva
  | cvg
  | smp
  /-- `.word <v>`, the literal word. -/
  | word (v : Int)
deriving DecidableEq, Repr

/-- A number in `lo..hi`, else the assembler refuses (R80). -/
def inRange (lo hi n : Int) : Option Int := if lo ≤ n ∧ n ≤ hi then some n else none

/-- An unsigned field of `w` bits (R80). -/
def unsignedField (w : Nat) (n : Int) : Option (BitVec w) :=
  (inRange 0 (2 ^ w - 1) n).map (fun m => BitVec.ofNat w m.toNat)

/-- The load command of a group. -/
def loadInstr (grp : Group) (bst d0 d1 d2 d3 d4 d5 : Byte) : Instr :=
  match grp with
  | .accel => .lda bst d0 d1 d2 d3 d4 d5
  | .gyro => .ldg bst d0 d1 d2 d3 d4 d5

/-- The word a line encodes; `none` where the assembler refuses a value (R80, R81). -/
def assemble (l : AsmLine) : Option Word :=
  match l with
  | .cfg a g | .init a g => do
    let a ← unsignedField 2 a
    let g ← unsignedField 2 g
    pure (encode (.cfg a g))
  | .load grp d0 d1 d2 d3 d4 d5 => do
    let d0 ← unsignedField 8 d0
    let d1 ← unsignedField 8 d1
    let d2 ← unsignedField 8 d2
    let d3 ← unsignedField 8 d3
    let d4 ← unsignedField 8 d4
    let d5 ← unsignedField 8 d5
    pure (encode (loadInstr grp 0#8 d0 d1 d2 d3 d4 d5))
  | .loadFailed grp b => do
    let b ← inRange 1 2 b
    pure (encode (loadInstr grp (BitVec.ofNat 8 b.toNat) 0#8 0#8 0#8 0#8 0#8 0#8))
  | .loadI16 grp x y z => do
    let x ← inRange (-32768) 32767 x
    let y ← inRange (-32768) 32767 y
    let z ← inRange (-32768) 32767 z
    pure (encode (loadInstr grp 0#8 (hi8 (u16 x)) (lo8 (u16 x)) (hi8 (u16 y)) (lo8 (u16 y)) (hi8 (u16 z)) (lo8 (u16 z))))
  | .cva => some (encode .cva)
  | .cvg => some (encode .cvg)
  | .smp => some (encode .smp)
  | .word v => unsignedField 64 v

/-- White space inside a line (log 18). -/
def isBlank (c : Char) : Bool := c == ' ' || c == '\t' || c == '\r'

/-- A text without the white space at its two ends. -/
def trim (cs : List Char) : List Char := ((cs.dropWhile isBlank).reverse.dropWhile isBlank).reverse

/-- A text cut at each `sep`. -/
def cutAt (sep : Char) : List Char → List (List Char)
  | [] => [[]]
  | c :: cs =>
    if c == sep then [] :: cutAt sep cs
    else match cutAt sep cs with
      | [] => [[c]]
      | f :: fs => (c :: f) :: fs

/-- The value of a digit in a base of at most 16. -/
def digitOf (base : Nat) (c : Char) : Option Nat :=
  let n := c.toNat
  let d := if 48 ≤ n ∧ n ≤ 57 then some (n - 48)
    else if 97 ≤ n ∧ n ≤ 102 then some (n - 87)
    else if 65 ≤ n ∧ n ≤ 70 then some (n - 55)
    else none
  match d with
  | some v => if v < base then some v else none
  | none => none

/-- Digits, most significant first, onto what has been read so far. -/
def digits (base : Nat) (acc : Nat) : List Char → Option Nat
  | [] => some acc
  | c :: cs =>
    match digitOf base c with
    | some d => digits base (acc * base + d) cs
    | none => none

/-- A number without sign, "in decimal or `0x` hex" (R80). -/
def natural (cs : List Char) : Option Nat :=
  match cs with
  | [] => none
  | '0' :: 'x' :: [] => none
  | '0' :: 'x' :: h => digits 16 0 h
  | d => digits 10 0 d

/-- A number, with a minus sign as R81's signed operands need. -/
def number (cs : List Char) : Option Int :=
  match cs with
  | '-' :: d => (natural d).map (fun n => -(n : Int))
  | d => (natural d).map (fun n => (n : Int))

/-- The number of an operand `key=<number>`. -/
def keyed (key : List Char) (cs : List Char) : Option Int :=
  if key.isPrefixOf cs then number (cs.drop key.length) else none

/-- The numbers of a list of operands. -/
def numbers : List (List Char) → Option (List Int)
  | [] => some []
  | o :: os =>
    match number o, numbers os with
    | some n, some ns => some (n :: ns)
    | _, _ => none

/-- `afs=<a>, gfs=<g>`. -/
def rangeOperands (os : List (List Char)) : Option (Int × Int) :=
  match os with
  | [a, g] =>
    match keyed ['a', 'f', 's', '='] a, keyed ['g', 'f', 's', '='] g with
    | some a, some g => some (a, g)
    | _, _ => none
  | _ => none

/-- The operands of `lda` or `ldg`: six bytes, or `bst=<b>`. -/
def loadOperands (grp : Group) (os : List (List Char)) : Option AsmLine :=
  match os with
  | [b] => (keyed ['b', 's', 't', '='] b).map (.loadFailed grp)
  | _ =>
    match numbers os with
    | some [d0, d1, d2, d3, d4, d5] => some (.load grp d0 d1 d2 d3 d4 d5)
    | _ => none

/-- The operands of `lda.i16` or `ldg.i16`. -/
def i16Operands (grp : Group) (os : List (List Char)) : Option AsmLine :=
  match numbers os with
  | some [x, y, z] => some (.loadI16 grp x y z)
  | _ => none

/-- A command from its mnemonic and its operands (R80, R81). -/
def parseCommand (mnemonic : List Char) (os : List (List Char)) : Option AsmLine :=
  if mnemonic = ['c', 'f', 'g'] then (rangeOperands os).map (fun r => .cfg r.1 r.2)
  else if mnemonic = ['i', 'n', 'i', 't'] then (rangeOperands os).map (fun r => .init r.1 r.2)
  else if mnemonic = ['l', 'd', 'a'] then loadOperands .accel os
  else if mnemonic = ['l', 'd', 'g'] then loadOperands .gyro os
  else if mnemonic = ['l', 'd', 'a', '.', 'i', '1', '6'] then i16Operands .accel os
  else if mnemonic = ['l', 'd', 'g', '.', 'i', '1', '6'] then i16Operands .gyro os
  else if mnemonic = ['c', 'v', 'a'] ∧ os = [] then some .cva
  else if mnemonic = ['c', 'v', 'g'] ∧ os = [] then some .cvg
  else if mnemonic = ['s', 'm', 'p'] ∧ os = [] then some .smp
  else if mnemonic = ['.', 'w', 'o', 'r', 'd'] then
    match numbers os with
    | some [v] => some (.word v)
    | _ => none
  else none

/-- The operands of a line: separated by commas, none where there is no text (R80). -/
def operandsOf (cs : List Char) : List (List Char) :=
  if trim cs = [] then [] else (cutAt ',' cs).map trim

/-- A line's text before its comment (`;` starts a comment, R80). -/
def uncomment (cs : List Char) : List Char := trim (cs.takeWhile (fun c => c != ';'))

/-- The words of one line: none for a line of comment or white space, else one; `none` where the assembler refuses. -/
def assembleLine (cs : List Char) : Option (List Word) :=
  let t := uncomment cs
  if t = [] then some []
  else
    match parseCommand (t.takeWhile (fun c => !isBlank c)) (operandsOf (t.dropWhile (fun c => !isBlank c))) with
    | some l => (assemble l).map (fun w => [w])
    | none => none

/-- The words of a list of lines. -/
def assembleLines : List (List Char) → Option (List Word)
  | [] => some []
  | l :: ls =>
    match assembleLine l, assembleLines ls with
    | some w, some ws => some (w ++ ws)
    | _, _ => none

/-- A program: one command per line (R80). -/
def assembleProgram (text : List Char) : Option (List Word) := assembleLines (cutAt '\n' text)

end Sys2Proof.Machine
end

