-- ==== Sys2Proof/Machine/Driver.lean ====
section
/-!
DEFINITION. Sys2Proof/Machine/Driver.lean: the host's two procedures over the block, as spec 40_config R91, R92 and
70_reset_and_hazards R183, R184 prescribe them. HOST DUTIES, not behaviour of the block (log 17): the outcomes of the bus
are arguments, and the bus itself is outside the model (00_scope R7).
-/
namespace Sys2Proof.Machine

/-- The outcome of one `readRegisters(base, 6)` on the bus (R75). -/
inductive BusRead where
  /-- All six bytes, in arrival order. -/
  | ok (d0 d1 d2 d3 d4 d5 : Byte)
  /-- `BusError::AddressWriteFailed`. -/
  | addressWriteFailed
  /-- `BusError::ReadFailed`. -/
  | readFailed
deriving DecidableEq, Repr

/-- The load a host issues for a read of a group: the outcome as `BST`, the bytes in arrival order (R75, R184). The
bytes of a failed read may be anything (R75); this host sends zeros, as `lda bst=` does (R80). -/
def busLoad (grp : Group) (r : BusRead) : Instr :=
  match r with
  | .ok d0 d1 d2 d3 d4 d5 => loadInstr grp 0#8 d0 d1 d2 d3 d4 d5
  | .addressWriteFailed => loadInstr grp 1#8 0#8 0#8 0#8 0#8 0#8 0#8
  | .readFailed => loadInstr grp 2#8 0#8 0#8 0#8 0#8 0#8 0#8

/-- The state after the host issues a word and waits for its response (R188). A `CmdIssue` always completes
(`Laws.cmdIssue_completes`). -/
def issue (w : Word) (s : State) : State :=
  match cmdIssue w s with
  | .next t => t
  | .fault _ => s
  | .refused _ => s

/-- How the host's `initialize()` ends (R91, R158). -/
inductive InitOutcome where
  | ok
  /-- `DriverError::ConfigWriteFailed(step)`. -/
  | configWriteFailed (step : Nat)
  /-- The block's answer to CFG was an error. -/
  | rejected (c : ErrCode)
deriving DecidableEq, Repr

/-- The host's `initialize()`: three bus writes in order, whose success is given; the first failure aborts and no CFG is
issued; after all three, CFG with the codes written (R91, R183). -/
def driverInit (w1 w2 w3 : Bool) (afs gfs : BitVec 2) (s : State) : State × InitOutcome :=
  if w1 = false then (s, .configWriteFailed 1)
  else if w2 = false then (s, .configWriteFailed 2)
  else if w3 = false then (s, .configWriteFailed 3)
  else
    let t := issue (encode (.cfg afs gfs)) s
    (t, if t.err = .ok then .ok else .rejected t.err)

/-- A SensorSample as the host reads it at indices 2 to 7 (R133). -/
structure SensorSample where
  accel : Triple 64
  gyro : Triple 64
deriving DecidableEq, Repr

/-- `RegRead` of indices 2 to 7. -/
def readSample (s : State) : SensorSample :=
  ⟨⟨regRead s 2#8, regRead s 3#8, regRead s 4#8⟩, ⟨regRead s 5#8, regRead s 6#8, regRead s 7#8⟩⟩

/-- What one `sample()` leaves: the block, the sample or the first error, and how many bus reads were made. -/
structure SampleRun where
  block : State
  result : Except ErrCode SensorSample
  busReads : Nat
deriving Repr

/-- The host's `sample()` (R184): check `STATUS.STATE` first, then LDA, LDG and SMP, stopping at the first nonzero
response, then read the sample. -/
def driverSample (readA readG : BusRead) (s : State) : SampleRun :=
  if (regRead s 0#8).extractLsb' 0 2 = 0#2 then ⟨s, .error .notInitialized, 0⟩
  else
    let a := issue (encode (busLoad .accel readA)) s
    if a.err ≠ .ok then ⟨a, .error a.err, 1⟩
    else
      let g := issue (encode (busLoad .gyro readG)) a
      if g.err ≠ .ok then ⟨g, .error g.err, 2⟩
      else
        let m := issue (encode .smp) g
        if m.err ≠ .ok then ⟨m, .error m.err, 2⟩ else ⟨m, .ok (readSample m), 2⟩

end Sys2Proof.Machine
end

