-- ==== Sys2Proof/Safety.lean ====
section
/-!
DEFINITION. Sys2Proof/Safety.lean: what counts as a safe run, and the invariants the statements use.
-/
namespace Sys2Proof

open Sys2Proof.Machine

/-- A command ended with a next state: no error of the RDSC is fatal (spec 60_exceptions R159). -/
def Completes (o : Result) : Prop := ∃ t, o = .next t

/-- The registers of one group agree with `STATE` and with each other (R23, R25 to R29, R90, R130). -/
structure GroupOk (drv : DriverState) (r : GroupRegs) : Prop where
  /-- A fresh group has been loaded (R27, R28). -/
  fresh_loaded : r.fresh = true → r.loaded = true
  /-- "`LOADED_A == 1` implies `STATE == SAMPLING`" (R130). -/
  loaded_sampling : r.loaded = true → drv = .sampling
  /-- An output file is written only from a loaded group (R130, R132). -/
  outv_loaded : r.outv = true → r.loaded = true
  /-- A raw file never loaded holds its reset value (R25, R27). -/
  raw_reset : r.loaded = false → r.raw = ⟨0#16, 0#16, 0#16⟩
  /-- "A flag at 0 means the file still holds its reset value" (R29). -/
  out_reset : r.outv = false → r.out = ⟨0#64, 0#64, 0#64⟩
  /-- In `UNINIT` the range is the reset value (R23). -/
  fs_reset : drv = .uninit → r.fs = 0#2

/-- The invariant of the block: both groups agree with `STATE`, `SAMPLING` is reached by a load, and a result code just
returned is the new `ERR` (R52). -/
structure Inv (s : State) : Prop where
  accel : GroupOk s.drv s.accel
  gyro : GroupOk s.drv s.gyro
  sampling_loaded : s.drv = .sampling → s.accel.loaded = true ∨ s.gyro.loaded = true
  resp_err : ∀ c, s.resp = .code c → s.err = c

/-- Every output register of a file that has been written holds the conversion, at the active range, of some count. That the
three counts of a file come from one load is no property of one state: StepKeepsWholeSamples says it of the step. -/
def OutputsAreConversions (s : State) : Prop :=
  ∀ g : Group, (regs g s).outv = true → ∃ t : Triple 16, (regs g s).out = cvtTriple g s.params (regs g s).fs t

/-- The spec's state of two instances is the same; the host's side may differ. -/
def SameBlock (s t : State) : Prop :=
  s.drv = t.drv ∧ s.accel = t.accel ∧ s.gyro = t.gyro ∧ s.err = t.err

/-- `s` with both output files blanked: what a state is apart from `OUT_A` and `OUT_G`. -/
def eraseOut (s : State) : State :=
  { s with
    accel := { s.accel with out := ⟨0#64, 0#64, 0#64⟩ }
    gyro := { s.gyro with out := ⟨0#64, 0#64, 0#64⟩ } }

/-- A command of the sampling set of R40 and R153: every command but CFG. -/
def isSampling : Instr → Bool
  | .cfg _ _ => false
  | .lda _ _ _ _ _ _ _ => true
  | .ldg _ _ _ _ _ _ _ => true
  | .cva => true
  | .cvg => true
  | .smp => true

/-- An action that puts the block in reset (R161, R181). -/
def isReset : HostEvent → Bool
  | .cmd _ => false
  | .read _ => false
  | .reset => true
  | .resetInFlight _ => true
  | .overlap _ _ => false

/-- A load of group g whose bus status says that all six bytes came (R75). -/
def isGoodLoad (g : Group) (i : Instr) : Bool :=
  match i with
  | .cfg _ _ => false
  | .lda bst _ _ _ _ _ _ => decide (g = .accel ∧ bst = 0x00#8)
  | .ldg bst _ _ _ _ _ _ => decide (g = .gyro ∧ bst = 0x00#8)
  | .cva => false
  | .cvg => false
  | .smp => false

/-- An action of the host that can load group g: no other makes the group fresh (R28). -/
def loadsGroup (g : Group) (e : HostEvent) : Bool :=
  match e with
  | .cmd w =>
    match decode w with
    | .command i => isGoodLoad g i
    | .illegal _ => false
  | .read _ => false
  | .reset => false
  | .resetInFlight _ => false
  | .overlap _ _ => false

/-- The command that converts group g alone (R130, R131). -/
def convInstr (g : Group) : Instr :=
  match g with
  | .accel => .cva
  | .gyro => .cvg

/-- An instance of build `p` right after reset, with the host's whole script ahead of it. -/
def bootState (p : Params) (script : List HostEvent) : State := { State.reset with params := p, script := script }

/-- The exact real a binary64 pattern denotes (R15). -/
def realOf (b : F64) : ℚ :=
  if signOf b then -((numOf b : ℚ) / (denOf b : ℚ)) else (numOf b : ℚ) / (denOf b : ℚ)

/-- `RNE64(x)` of a rational (R15). -/
def rne64 (x : ℚ) : F64 := roundTo (decide (x < 0)) x.num.natAbs x.den

/-- A pattern whose exponent field is not all ones: it denotes a real. -/
def Finite64 (b : F64) : Prop := expOf b < 2047

/-- Zero as +0.0, or a normal value of magnitude in [2^-31, 2^31] (R125, R126). -/
def ZeroOrInRange (b : F64) : Prop :=
  b = 0#64 ∨ (0 < expOf b ∧ expOf b < 2047 ∧ (1 : ℚ) / 2 ^ 31 ≤ |realOf b| ∧ |realOf b| ≤ 2 ^ 31)

/-- A legal build, and in every output register +0.0 or a value in the range of R125. -/
structure OutputsInRange (s : State) : Prop where
  legal : legalParams s.params = true
  inRange : ∀ g : Group, ZeroOrInRange (regs g s).out.x ∧ ZeroOrInRange (regs g s).out.y ∧ ZeroOrInRange (regs g s).out.z

/-- An integer in the range of a raw count (R13). -/
def IsCount (r : Int) : Prop := -32768 ≤ r ∧ r ≤ 32767

/-- `S = 2^k` for the entry of a table: the shift path serves it (R128). -/
def IsPowerOfTwo (b : F64) (k : Nat) : Prop := realOf b = 2 ^ k

end Sys2Proof
end

