-- ==== Sys2Proof/Certificates/Slice0/Obligations.lean ====
section
/-!
DEFINITION. Sys2Proof/Certificates/Slice0/Obligations.lean: the statements for the provers. Each cites the rule of spec/ it
formalises. Where a statement says what an instruction answers, it gives the whole next state as an update of the old one:
every field not named in the update is unchanged.
-/

open Sys2Proof Sys2Proof.Machine

/-! ### Encoding (spec 30_encoding) -/

/-- Encoding loses nothing: every well-formed command is read back from its word, with every operand (R72 to R77). -/
def Obligations.DecodeOfEncode : Prop :=
  ∀ i : Instr, WellFormed i = true → decode (encode i) = .command i

/-- Decoding loses nothing: an accepted word has well-formed operands, and it is the word of what was read (R72 to R77). -/
def Obligations.EncodeOfDecode : Prop :=
  ∀ (w : Word) (i : Instr), decode w = .command i → WellFormed i = true ∧ encode i = w

/-- The decoder's verdict on every word, as R77 lists it, on the word as a number; an issued word whose verdict is
`ILLEGAL_COMMAND` reports that error, in any state and before any other. -/
def Obligations.DecoderVerdict : Prop :=
  ∀ (w : Word) (n : Nat), n = w.toNat →
    (n % 256 = 1 → n / 2 ^ 12 = 0 →
      decode w = .command (.cfg (BitVec.ofNat 2 (n / 2 ^ 8)) (BitVec.ofNat 2 (n / 2 ^ 10)))) ∧
    (n % 256 = 2 → n / 2 ^ 8 % 256 ≤ 2 →
      decode w = .command (.lda (BitVec.ofNat 8 (n / 2 ^ 8)) (BitVec.ofNat 8 (n / 2 ^ 16)) (BitVec.ofNat 8 (n / 2 ^ 24))
        (BitVec.ofNat 8 (n / 2 ^ 32)) (BitVec.ofNat 8 (n / 2 ^ 40)) (BitVec.ofNat 8 (n / 2 ^ 48))
        (BitVec.ofNat 8 (n / 2 ^ 56)))) ∧
    (n % 256 = 3 → n / 2 ^ 8 % 256 ≤ 2 →
      decode w = .command (.ldg (BitVec.ofNat 8 (n / 2 ^ 8)) (BitVec.ofNat 8 (n / 2 ^ 16)) (BitVec.ofNat 8 (n / 2 ^ 24))
        (BitVec.ofNat 8 (n / 2 ^ 32)) (BitVec.ofNat 8 (n / 2 ^ 40)) (BitVec.ofNat 8 (n / 2 ^ 48))
        (BitVec.ofNat 8 (n / 2 ^ 56)))) ∧
    (n % 256 = 4 → n / 2 ^ 8 = 0 → decode w = .command .cva) ∧
    (n % 256 = 5 → n / 2 ^ 8 = 0 → decode w = .command .cvg) ∧
    (n % 256 = 6 → n / 2 ^ 8 = 0 → decode w = .command .smp) ∧
    ((n % 256 = 1 ∧ n / 2 ^ 12 ≠ 0 ∨ (n % 256 = 2 ∨ n % 256 = 3) ∧ 2 < n / 2 ^ 8 % 256 ∨
        (n % 256 = 4 ∨ n % 256 = 5 ∨ n % 256 = 6) ∧ n / 2 ^ 8 ≠ 0 ∨ n % 256 = 0 ∨ 6 < n % 256) →
      (∃ why, decode w = .illegal why) ∧
      ∀ s, cmdIssue w s = .next { s with err := .illegalCommand, resp := .code .illegalCommand })

/-- The worked encodings of R82: read back by the decoder, and written for the assembler lines R82 names. -/
def Obligations.WorkedEncodings : Prop :=
  decode 0x0000000000000301#64 = .command (.cfg 3#2 0#2) ∧
  decode 0x0000000000000701#64 = .command (.cfg 3#2 1#2) ∧
  decode 0x00E0000000200002#64 = .command (.lda 0#8 0x20#8 0#8 0#8 0#8 0xE0#8 0#8) ∧
  decode 0x0000000000000203#64 = .command (.ldg 2#8 0#8 0#8 0#8 0#8 0#8 0#8) ∧
  decode 0x0000000000000004#64 = .command .cva ∧
  decode 0x0000000000000005#64 = .command .cvg ∧
  decode 0x0000000000000006#64 = .command .smp ∧
  assemble (.cfg 3 0) = some 0x0000000000000301#64 ∧
  assemble (.cfg 3 1) = some 0x0000000000000701#64 ∧
  assemble (.load .accel 0x20 0x00 0x00 0x00 0xE0 0x00) = some 0x00E0000000200002#64 ∧
  assemble (.loadFailed .gyro 2) = some 0x0000000000000203#64 ∧
  assemble .cva = some 0x0000000000000004#64 ∧
  assemble .cvg = some 0x0000000000000005#64 ∧
  assemble .smp = some 0x0000000000000006#64

/-- The reserved encodings of R78 are the words whose verdict is `ILLEGAL_COMMAND`, and no others; issued in any state, such
a word writes `ERR <- ILLEGAL_COMMAND` and nothing else (R151). -/
def Obligations.ReservedWordWritesOnlyErr : Prop :=
  ∀ (w : Word) (op bst : Nat), op = w.toNat % 256 → bst = w.toNat / 256 % 256 →
    ((∃ why, decode w = .illegal why) ↔
      (op = 0 ∨ 7 ≤ op ∨ (op = 1 ∧ w.toNat / 2 ^ 12 ≠ 0) ∨ ((op = 2 ∨ op = 3) ∧ 3 ≤ bst) ∨
        ((op = 4 ∨ op = 5 ∨ op = 6) ∧ w.toNat / 2 ^ 8 ≠ 0))) ∧
    ∀ (s : State) (rest : List HostEvent), s.script = .cmd w :: rest → (∃ why, decode w = .illegal why) →
      step s = .next { s with script := rest, err := .illegalCommand, resp := .code .illegalCommand }

/-! ### The step, the ports and reset (spec 20_memory, 60_exceptions, 70_reset_and_hazards) -/

/-- A step runs the decoded command: with a word next that decodes to `i`, step is exec of `i`, the action taken off the
host's script and nothing else added. -/
def Obligations.StepRunsDecodedCommand : Prop :=
  ∀ (s : State) (w : Word) (i : Instr) (rest : List HostEvent), s.script = .cmd w :: rest → decode w = .command i →
    step s = exec i { s with script := rest }

/-- Placing a well-formed command's word as the table numbers it makes the very next step run that command, and leaves the
rest of the host's script for later (how a word is placed is the model's choice, log 15). -/
def Obligations.PlacedWordRuns : Prop :=
  ∀ (s : State) (i : Instr), WellFormed i = true →
    decodeTableWord 64 (encode i).toNat = some i ∧ step (s.withFetchWord 64 (encode i).toNat) = exec i s

/-- The response to a command is the new `ERR` (R52). -/
def Obligations.ResponseIsNewErr : Prop :=
  ∀ (s t : State) (w : Word) (rest : List HostEvent), s.script = .cmd w :: rest → step s = .next t →
    t.resp = .code t.err ∧ t.script = rest ∧ t.params = s.params

/-- A register read has no side effect, and can be repeated any number of times: after any reads, a read of `i` answers what
it would have answered at once, and no state is written (R51). -/
def Obligations.RegReadHasNoSideEffect : Prop :=
  ∀ (s : State) (i : BitVec 8) (before : List (BitVec 8)) (rest : List HostEvent),
    s.script = before.map .read ++ .read i :: rest →
    Host.Core.run core (before.length + 1) s = .next { s with resp := .data (regRead s i), script := rest }

/-- A read issued after a command sees all that the command wrote, one issued before it none of it (R57). -/
def Obligations.ReadsAreOrderedWithCommands : Prop :=
  ∀ (s t : State) (w : Word) (i j : BitVec 8) (rest : List HostEvent),
    s.script = .read i :: .cmd w :: .read j :: rest → Host.Core.run core 2 s = .next t →
    ∃ r u, step s = .next r ∧ r.resp = .data (regRead s i) ∧
      cmdIssue w { s with resp := r.resp, script := .read j :: rest } = .next t ∧
      step t = .next u ∧ u.resp = .data (regRead t j)

/-- `STATUS` as the table of R31 packs it, and its value at reset. -/
def Obligations.StatusPacking : Prop :=
  regRead State.reset 0#8 = 0x0000000000000000#64 ∧ ∀ s : State, (regRead s 0#8).toNat =
    (match s.drv with | .uninit => 0 | .configured => 1 | .sampling => 2)
    + 2 ^ 4 * (match s.err with
      | .ok => 0 | .illegalCommand => 1 | .notInitialized => 2 | .configLocked => 3
      | .busAddr => 4 | .busRead => 5 | .noData => 6)
    + 2 ^ 8 * s.accel.loaded.toNat + 2 ^ 9 * s.gyro.loaded.toNat
    + 2 ^ 10 * s.accel.fresh.toNat + 2 ^ 11 * s.gyro.fresh.toNat
    + 2 ^ 12 * s.accel.outv.toNat + 2 ^ 13 * s.gyro.outv.toNat

/-- `CONFIG` as the table of R32 packs it. -/
def Obligations.ConfigPacking : Prop :=
  ∀ s : State, (regRead s 1#8).toNat =
    s.accel.fs.toNat + 2 ^ 2 * s.gyro.fs.toNat
    + 2 ^ 4 * (match s.params.accelUnit with | .mps2 => 0 | .g => 1)
    + 2 ^ 5 * (match s.params.convMode with | .twoStep => 0 | .fused => 1)

/-- The read indices 2 to 9 (R33, R34) and the reserved ones (R35). -/
def Obligations.ReadIndexMap : Prop :=
  ∀ (s : State) (i : BitVec 8),
    (i.toNat = 2 → regRead s i = s.accel.out.x) ∧ (i.toNat = 3 → regRead s i = s.accel.out.y) ∧
    (i.toNat = 4 → regRead s i = s.accel.out.z) ∧ (i.toNat = 5 → regRead s i = s.gyro.out.x) ∧
    (i.toNat = 6 → regRead s i = s.gyro.out.y) ∧ (i.toNat = 7 → regRead s i = s.gyro.out.z) ∧
    (i.toNat = 8 → (regRead s i).toNat =
      s.accel.raw.x.toNat + 2 ^ 16 * s.accel.raw.y.toNat + 2 ^ 32 * s.accel.raw.z.toNat) ∧
    (i.toNat = 9 → (regRead s i).toNat =
      s.gyro.raw.x.toNat + 2 ^ 16 * s.gyro.raw.y.toNat + 2 ^ 32 * s.gyro.raw.z.toNat) ∧
    (10 ≤ i.toNat → regRead s i = 0#64)

/-- What reset leaves, by the table of R180, in every build; `CONFIG` reads 0 for this hardware's build and shows the build
parameters in bits 5:4. -/
def Obligations.ResetValues : Prop :=
  (∀ s : State, (s = State.reset ∨ ∃ p script, s = bootState p script) →
    s.drv = .uninit ∧ s.err = .ok ∧
    (∀ g : Group, (regs g s).fs = 0#2 ∧ (regs g s).raw = ⟨0x0000#16, 0x0000#16, 0x0000#16⟩ ∧
      (regs g s).out = ⟨0x0000000000000000#64, 0x0000000000000000#64, 0x0000000000000000#64⟩ ∧
      (regs g s).loaded = false ∧ (regs g s).fresh = false ∧ (regs g s).outv = false) ∧
    regRead s 0#8 = 0x0000000000000000#64 ∧
    (regRead s 1#8).toNat = 2 ^ 4 * (match s.params.accelUnit with | .mps2 => 0 | .g => 1)
      + 2 ^ 5 * (match s.params.convMode with | .twoStep => 0 | .fused => 1)) ∧
  regRead State.reset 1#8 = 0x0000000000000000#64

/-- Reset, between commands or with a command in flight: the reset state, none of the command's writes and no response
(R161); the build parameters are kept (R181). That the host's later actions are kept is the model's choice (log 7). -/
def Obligations.ResetAbandonsCommand : Prop :=
  ∀ (s : State) (e : HostEvent) (rest : List HostEvent), s.script = e :: rest → isReset e = true →
    ∃ t, step s = .next t ∧ SameBlock t State.reset ∧ t.resp = .none ∧ t.params = s.params ∧ t.script = rest

/-- With nothing left in the host's script the block waits, unchanged (R181; the stuttering step is the model's
choice, log 5). -/
def Obligations.IdleBlockWaits : Prop :=
  ∀ s : State, s.script = [] → step s = .next s

/-- Every command completes (R189), in any state, whatever its word, in one step; so does a register read and a reset. The
one action a step refuses is a second issue while one is in flight (R188), and no step faults (R159). That reads, resets and a
second issue are steps of the machine is the model's choice (log 6, log 7, log 11). -/
def Obligations.EveryActionCompletesButOverlap : Prop :=
  ∀ s : State,
    ((∀ w v rest, s.script ≠ .overlap w v :: rest) → Completes (step s)) ∧
    ((∃ w v rest, s.script = .overlap w v :: rest) → step s = .refused .concurrentIssue)

/-! ### The six commands (spec 40_config, 41_decode, 42_convert) -/

/-- CFG (R90): in `UNINIT` it stores both codes and enters `CONFIGURED`; elsewhere it is `CONFIG_LOCKED`; a word of its
opcode with a bit of 63:12 set is `ILLEGAL_COMMAND`. Then R90's flags in `UNINIT`, and its example. -/
def Obligations.CfgMeaning : Prop :=
  (∀ (s : State) (afs gfs : BitVec 2), s.drv = .uninit →
    exec (.cfg afs gfs) s = .next { s with
      drv := .configured, accel := { s.accel with fs := afs }, gyro := { s.gyro with fs := gfs },
      err := .ok, resp := .code .ok }) ∧
  (∀ (s : State) (afs gfs : BitVec 2), s.drv ≠ .uninit →
    exec (.cfg afs gfs) s = .next { s with err := .configLocked, resp := .code .configLocked }) ∧
  (∀ (s : State) (w : Word), w.toNat % 256 = 1 → w.toNat / 2 ^ 12 ≠ 0 →
    cmdIssue w s = .next { s with err := .illegalCommand, resp := .code .illegalCommand }) ∧
  (∀ (s : State) (g : Group), Inv s → s.drv = .uninit →
    (regs g s).loaded = false ∧ (regs g s).fresh = false ∧ (regs g s).outv = false) ∧
  (∀ (p : Params) (script : List HostEvent), p.accelUnit = .mps2 → p.convMode = .twoStep →
    ∃ t, cmdIssue 0x0000000000000301#64 (bootState p script) = .next t ∧ t.accel.fs = 3#2 ∧ t.gyro.fs = 0#2 ∧
      t.drv = .configured ∧ t.err = .ok ∧ regRead t 0#8 = 0x0000000000000001#64 ∧
      regRead t 1#8 = 0x0000000000000003#64)

/-- LDA (R100, R103): with the bus status 0 and `STATE` past `UNINIT` it stores the three pairs, high byte first, sets
`LOADED_A` and `FRESH_A` and leaves `STATE` = `SAMPLING`; its errors otherwise. Then R100's flag in `UNINIT`, and its example. -/
def Obligations.LdaMeaning : Prop :=
  ∀ (s : State) (bst d0 d1 d2 d3 d4 d5 : Byte),
    (bst.toNat = 0 → s.drv ≠ .uninit →
      exec (.lda bst d0 d1 d2 d3 d4 d5) s = .next { s with
        drv := .sampling,
        accel := { s.accel with raw := ⟨d0 ++ d1, d2 ++ d3, d4 ++ d5⟩, loaded := true, fresh := true },
        err := .ok, resp := .code .ok }) ∧
    (bst.toNat = 1 → s.drv ≠ .uninit →
      exec (.lda bst d0 d1 d2 d3 d4 d5) s = .next { s with
        accel := { s.accel with fresh := false }, err := .busAddr, resp := .code .busAddr }) ∧
    (bst.toNat = 2 → s.drv ≠ .uninit →
      exec (.lda bst d0 d1 d2 d3 d4 d5) s = .next { s with
        accel := { s.accel with fresh := false }, err := .busRead, resp := .code .busRead }) ∧
    (bst.toNat ≤ 2 → s.drv = .uninit →
      exec (.lda bst d0 d1 d2 d3 d4 d5) s = .next { s with err := .notInitialized, resp := .code .notInitialized }) ∧
    (∀ w : Word, w.toNat % 256 = 2 → 2 < w.toNat / 2 ^ 8 % 256 →
      cmdIssue w s = .next { s with err := .illegalCommand, resp := .code .illegalCommand }) ∧
    (Inv s → s.drv = .uninit → s.accel.fresh = false) ∧
    (s.drv = .configured → ∃ t, cmdIssue 0x00E0000000200002#64 s = .next t ∧
      t.accel.raw = ⟨0x2000#16, 0x0000#16, 0xE000#16⟩ ∧ s16 0x2000#16 = 8192 ∧ s16 0xE000#16 = -8192 ∧
      t.accel.loaded = true ∧ t.accel.fresh = true ∧ t.drv = .sampling ∧ t.err = .ok ∧
      regRead t 8#8 = 0x0000E00000002000#64)

/-- LDG (R101, R103): as LDA, for group G, with R101's example. -/
def Obligations.LdgMeaning : Prop :=
  ∀ (s : State) (bst d0 d1 d2 d3 d4 d5 : Byte),
    (bst.toNat = 0 → s.drv ≠ .uninit →
      exec (.ldg bst d0 d1 d2 d3 d4 d5) s = .next { s with
        drv := .sampling,
        gyro := { s.gyro with raw := ⟨d0 ++ d1, d2 ++ d3, d4 ++ d5⟩, loaded := true, fresh := true },
        err := .ok, resp := .code .ok }) ∧
    (bst.toNat = 1 → s.drv ≠ .uninit →
      exec (.ldg bst d0 d1 d2 d3 d4 d5) s = .next { s with
        gyro := { s.gyro with fresh := false }, err := .busAddr, resp := .code .busAddr }) ∧
    (bst.toNat = 2 → s.drv ≠ .uninit →
      exec (.ldg bst d0 d1 d2 d3 d4 d5) s = .next { s with
        gyro := { s.gyro with fresh := false }, err := .busRead, resp := .code .busRead }) ∧
    (bst.toNat ≤ 2 → s.drv = .uninit →
      exec (.ldg bst d0 d1 d2 d3 d4 d5) s = .next { s with err := .notInitialized, resp := .code .notInitialized }) ∧
    (∀ w : Word, w.toNat % 256 = 3 → 2 < w.toNat / 2 ^ 8 % 256 →
      cmdIssue w s = .next { s with err := .illegalCommand, resp := .code .illegalCommand }) ∧
    (Inv s → s.drv = .uninit → s.gyro.fresh = false) ∧
    (s.drv = .sampling → ∃ t, cmdIssue 0x00807DFF83000003#64 s = .next t ∧
      t.gyro.raw = ⟨0x0083#16, 0xFF7D#16, 0x8000#16⟩ ∧ s16 0x0083#16 = 131 ∧ s16 0xFF7D#16 = -131 ∧
      s16 0x8000#16 = -32768 ∧ t.err = .ok)

/-- CVA (R130): past `UNINIT` with `LOADED_A` it converts the three counts at `ACC_FS` and sets `OUTV_A`; its errors
otherwise. Then R130's invariant, and its example. -/
def Obligations.CvaMeaning : Prop :=
  (∀ s : State, s.drv ≠ .uninit → s.accel.loaded = true →
    exec .cva s = .next { s with
      drv := .sampling,
      accel := { s.accel with
        out := ⟨cvtA s.params s.accel.fs s.accel.raw.x.toInt, cvtA s.params s.accel.fs s.accel.raw.y.toInt,
          cvtA s.params s.accel.fs s.accel.raw.z.toInt⟩,
        outv := true },
      err := .ok, resp := .code .ok }) ∧
  (∀ s : State, s.drv ≠ .uninit → s.accel.loaded = false →
    exec .cva s = .next { s with err := .noData, resp := .code .noData }) ∧
  (∀ s : State, s.drv = .uninit →
    exec .cva s = .next { s with err := .notInitialized, resp := .code .notInitialized }) ∧
  (∀ (s : State) (w : Word), w.toNat % 256 = 4 → w.toNat / 2 ^ 8 ≠ 0 →
    cmdIssue w s = .next { s with err := .illegalCommand, resp := .code .illegalCommand }) ∧
  (∀ s : State, Inv s → s.accel.loaded = true → s.drv = .sampling) ∧
  (∀ s : State, s.drv = .sampling → legalParams s.params = true →
    s.params.sensA.get 3#2 = 0x40A0000000000000#64 → s.params.grav = 0x40239D013A92A305#64 →
    s.params.accelUnit = .mps2 → s.accel.fs = 3#2 → s.accel.loaded = true →
    s.accel.raw = ⟨0x2000#16, 0x0000#16, 0xE000#16⟩ → ∃ t, exec .cva s = .next t ∧
      t.accel.out = ⟨0x40439D013A92A305#64, 0x0000000000000000#64, 0xC0439D013A92A305#64⟩)

/-- CVG (R131): as CVA, for group G, with R131's example. -/
def Obligations.CvgMeaning : Prop :=
  (∀ s : State, s.drv ≠ .uninit → s.gyro.loaded = true →
    exec .cvg s = .next { s with
      drv := .sampling,
      gyro := { s.gyro with
        out := ⟨cvtG s.params s.gyro.fs s.gyro.raw.x.toInt, cvtG s.params s.gyro.fs s.gyro.raw.y.toInt,
          cvtG s.params s.gyro.fs s.gyro.raw.z.toInt⟩,
        outv := true },
      err := .ok, resp := .code .ok }) ∧
  (∀ s : State, s.drv ≠ .uninit → s.gyro.loaded = false →
    exec .cvg s = .next { s with err := .noData, resp := .code .noData }) ∧
  (∀ s : State, s.drv = .uninit →
    exec .cvg s = .next { s with err := .notInitialized, resp := .code .notInitialized }) ∧
  (∀ (s : State) (w : Word), w.toNat % 256 = 5 → w.toNat / 2 ^ 8 ≠ 0 →
    cmdIssue w s = .next { s with err := .illegalCommand, resp := .code .illegalCommand }) ∧
  (∀ s : State, Inv s → s.gyro.loaded = true → s.drv = .sampling) ∧
  (∀ s : State, s.drv = .sampling → legalParams s.params = true →
    s.params.sensG.get 0#2 = 0x4060600000000000#64 → s.params.deg2rad = 0x3F91DF46A2529D39#64 →
    s.params.convMode = .twoStep → s.gyro.fs = 0#2 → s.gyro.loaded = true →
    s.gyro.raw = ⟨0x0083#16, 0xFF7D#16, 0x8000#16⟩ → ∃ t, exec .cvg s = .next t ∧
      t.gyro.out = ⟨0x3F91DF46A2529D39#64, 0xBF91DF46A2529D39#64, 0xC011767FA477CE62#64⟩)

/-- SMP (R132): past `UNINIT` with both groups fresh it converts both files, sets both `OUTV` and clears both `FRESH`;
its errors otherwise. Then R132's example. -/
def Obligations.SmpMeaning : Prop :=
  (∀ s : State, s.drv ≠ .uninit → s.accel.fresh = true → s.gyro.fresh = true →
    exec .smp s = .next { s with
      drv := .sampling,
      accel := { s.accel with
        out := ⟨cvtA s.params s.accel.fs s.accel.raw.x.toInt, cvtA s.params s.accel.fs s.accel.raw.y.toInt,
          cvtA s.params s.accel.fs s.accel.raw.z.toInt⟩,
        outv := true, fresh := false },
      gyro := { s.gyro with
        out := ⟨cvtG s.params s.gyro.fs s.gyro.raw.x.toInt, cvtG s.params s.gyro.fs s.gyro.raw.y.toInt,
          cvtG s.params s.gyro.fs s.gyro.raw.z.toInt⟩,
        outv := true, fresh := false },
      err := .ok, resp := .code .ok }) ∧
  (∀ s : State, s.drv ≠ .uninit → (s.accel.fresh = false ∨ s.gyro.fresh = false) →
    exec .smp s = .next { s with err := .noData, resp := .code .noData }) ∧
  (∀ s : State, s.drv = .uninit →
    exec .smp s = .next { s with err := .notInitialized, resp := .code .notInitialized }) ∧
  (∀ (s : State) (w : Word), w.toNat % 256 = 6 → w.toNat / 2 ^ 8 ≠ 0 →
    cmdIssue w s = .next { s with err := .illegalCommand, resp := .code .illegalCommand }) ∧
  (∀ s : State, s.drv = .sampling → legalParams s.params = true →
    s.params.sensA.get 3#2 = 0x40A0000000000000#64 → s.params.grav = 0x40239D013A92A305#64 →
    s.params.accelUnit = .mps2 →
    s.params.sensG.get 0#2 = 0x4060600000000000#64 → s.params.deg2rad = 0x3F91DF46A2529D39#64 →
    s.params.convMode = .twoStep → s.accel.fs = 3#2 → s.gyro.fs = 0#2 →
    s.accel.fresh = true → s.gyro.fresh = true →
    s.accel.raw = ⟨0x2000#16, 0x0000#16, 0xE000#16⟩ → s.gyro.raw = ⟨0x0083#16, 0xFF7D#16, 0x8000#16⟩ →
    ∃ t, exec .smp s = .next t ∧
      t.accel.out = ⟨0x40439D013A92A305#64, 0x0000000000000000#64, 0xC0439D013A92A305#64⟩ ∧
      t.gyro.out = ⟨0x3F91DF46A2529D39#64, 0xBF91DF46A2529D39#64, 0xC011767FA477CE62#64⟩)

/-- Who writes what (R36): each cell the table leaves empty is unchanged by its command, whether it succeeds or not; the
build and the host's script are never written. -/
def Obligations.WhoWritesWhat : Prop :=
  ∀ (i : Instr) (s t : State), exec i s = .next t →
    t.params = s.params ∧ t.script = s.script ∧
    match i with
    | .cfg _ _ =>
      t.accel = { s.accel with fs := t.accel.fs } ∧ t.gyro = { s.gyro with fs := t.gyro.fs }
    | .lda _ _ _ _ _ _ _ =>
      t.gyro = s.gyro ∧
      t.accel = { s.accel with raw := t.accel.raw, loaded := t.accel.loaded, fresh := t.accel.fresh }
    | .ldg _ _ _ _ _ _ _ =>
      t.accel = s.accel ∧
      t.gyro = { s.gyro with raw := t.gyro.raw, loaded := t.gyro.loaded, fresh := t.gyro.fresh }
    | .cva => t.gyro = s.gyro ∧ t.accel = { s.accel with out := t.accel.out, outv := t.accel.outv }
    | .cvg => t.accel = s.accel ∧ t.gyro = { s.gyro with out := t.gyro.out, outv := t.gyro.outv }
    | .smp =>
      t.accel = { s.accel with out := t.accel.out, outv := t.accel.outv, fresh := t.accel.fresh } ∧
      t.gyro = { s.gyro with out := t.gyro.out, outv := t.gyro.outv, fresh := t.gyro.fresh }

/-! ### Errors (spec 60_exceptions) -/

/-- A failed command writes `ERR` (and the response), and besides it only the `FRESH` flag of its group, cleared just
before a bus error is raised (R152). -/
def Obligations.FailedCommandWritesOnlyErr : Prop :=
  ∀ (i : Instr) (s t : State), exec i s = .next t → t.err ≠ .ok →
    (t.err ≠ .busAddr → t.err ≠ .busRead → t = { s with err := t.err, resp := .code t.err }) ∧
    ((t.err = .busAddr ∨ t.err = .busRead) →
      (∃ bst d0 d1 d2 d3 d4 d5, i = .lda bst d0 d1 d2 d3 d4 d5 ∧
        t = { s with accel := { s.accel with fresh := false }, err := t.err, resp := .code t.err }) ∨
      (∃ bst d0 d1 d2 d3 d4 d5, i = .ldg bst d0 d1 d2 d3 d4 d5 ∧
        t = { s with gyro := { s.gyro with fresh := false }, err := t.err, resp := .code t.err }))

/-- Exactly one error is reported, in the order of R156: the result code of an issued word, case by case, each case
under the negation of the ones of higher priority. -/
def Obligations.ErrorPriority : Prop :=
  ∀ (s t : State) (w : Word) (rest : List HostEvent), s.script = .cmd w :: rest → step s = .next t →
    match decode w with
    | .illegal _ => t.err = .illegalCommand
    | .command (.cfg _ _) => t.err = if s.drv = .uninit then .ok else .configLocked
    | .command (.lda bst _ _ _ _ _ _) | .command (.ldg bst _ _ _ _ _ _) =>
      t.err = if s.drv = .uninit then .notInitialized
        else if bst = 1#8 then .busAddr else if bst = 2#8 then .busRead else .ok
    | .command .cva =>
      t.err = if s.drv = .uninit then .notInitialized else if s.accel.loaded = false then .noData else .ok
    | .command .cvg =>
      t.err = if s.drv = .uninit then .notInitialized else if s.gyro.loaded = false then .noData else .ok
    | .command .smp =>
      t.err = if s.drv = .uninit then .notInitialized
        else if s.accel.fresh = false ∨ s.gyro.fresh = false then .noData else .ok

/-- The previous result code is never read: a command does the same whatever the last one reported (R154, R157). -/
def Obligations.LastErrorIsNeverRead : Prop :=
  ∀ (i : Instr) (s : State) (c : ErrCode) (r : Response), exec i { s with err := c, resp := r } = exec i s

/-! ### The driver state machine and the flags (spec 10_state) -/

/-- The sampling transition (R40): a sampling command that ends with `OK` in `CONFIGURED` leaves `SAMPLING`; in any other
case it leaves `STATE` as it was. `CONFIGURED` and `SAMPLING` allow the same commands and differ only in `STATE`. -/
def Obligations.SamplingTransition : Prop :=
  ∀ (i : Instr) (s t : State), exec i s = .next t →
    (isSampling i = true → t.err = .ok → s.drv = .configured → t.drv = .sampling) ∧
    (isSampling i = true → ¬ (t.err = .ok ∧ s.drv = .configured) → t.drv = s.drv) ∧
    (s.drv = .configured → exec i { s with drv := .sampling } = .next { t with drv := .sampling })

/-- The transitions of `STATE` (R22), over every step: it stays, or a successful CFG leaves `UNINIT`, or a successful
sampling command leaves `CONFIGURED`, or a reset returns to `UNINIT`. -/
def Obligations.StateTransitions : Prop :=
  ∀ s t : State, step s = .next t →
    t.drv = s.drv ∨
    (s.drv = .uninit ∧ t.drv = .configured ∧ t.err = .ok ∧
      ∃ w rest afs gfs, s.script = .cmd w :: rest ∧ decode w = .command (.cfg afs gfs)) ∨
    (s.drv = .configured ∧ t.drv = .sampling ∧ t.err = .ok ∧
      ∃ w rest i, s.script = .cmd w :: rest ∧ decode w = .command i ∧ isSampling i = true) ∨
    (t.drv = .uninit ∧ ∃ e rest, s.script = e :: rest ∧ isReset e = true)

/-- Only reset clears `LOADED` and `OUTV` (R27, R29); `FRESH` is cleared otherwise only by a load of its group that ends in
a bus error or by a successful SMP (R28). -/
def Obligations.FlagsAreClearedOnlyAsRuled : Prop :=
  ∀ (g : Group) (s t : State) (e : HostEvent) (rest : List HostEvent),
    s.script = e :: rest → isReset e = false → step s = .next t →
    ((regs g s).loaded = true → (regs g t).loaded = true) ∧
    ((regs g s).outv = true → (regs g t).outv = true) ∧
    ((regs g s).fresh = true → (regs g t).fresh = false →
      (∃ w, e = .cmd w ∧ decode w = .command .smp ∧ t.err = .ok ∧ (regs .accel t).fresh = false ∧
        (regs .gyro t).fresh = false) ∨
      (∃ w bst d0 d1 d2 d3 d4 d5, e = .cmd w ∧ decode w = .command (loadInstr g bst d0 d1 d2 d3 d4 d5) ∧
        (t.err = .busAddr ∨ t.err = .busRead)))

/-- A sample is never published twice from the same loads (R132): after a successful SMP, and any actions of the host among
which no load of group `g` succeeds, an SMP is `NO_DATA` (`NOT_INITIALIZED` after a reset) and changes nothing else;
without a reset among them the group's sample stays as it was, for conversions in between write it again alike. -/
def Obligations.SecondSampleHasNoData : Prop :=
  ∀ (g : Group) (s t u : State) (between rest : List HostEvent) (c : ErrCode),
    exec .smp s = .next t → t.err = .ok →
    t.script = between ++ rest → (∀ e ∈ between, loadsGroup g e = false) →
    Host.Core.run core between.length t = .next u → c = (if u.drv = .uninit then .notInitialized else .noData) →
    exec .smp u = .next { u with err := c, resp := .code c } ∧ u.script = rest ∧
    ((∀ e ∈ between, isReset e = false) →
      u.drv = .sampling ∧ (regs g u).out = (regs g t).out ∧ (regs g u).outv = true)

/-- After a load that ended in a bus error, no sample is taken until the group is loaded again (R28, R103): the load keeps
`RAW` and `LOADED`, and after any actions of the host among which no load of the group succeeds an SMP is `NO_DATA`
(`NOT_INITIALIZED` after a reset); without a reset among them the group's `RAW` is still the one before the load. -/
def Obligations.NoSampleAfterFailedLoad : Prop :=
  ∀ (g : Group) (s t u : State) (bst d0 d1 d2 d3 d4 d5 : Byte) (between rest : List HostEvent) (c : ErrCode),
    s.drv ≠ .uninit → (bst = 1#8 ∨ bst = 2#8) → exec (loadInstr g bst d0 d1 d2 d3 d4 d5) s = .next t →
    t.script = between ++ rest → (∀ e ∈ between, loadsGroup g e = false) →
    Host.Core.run core between.length t = .next u → c = (if u.drv = .uninit then .notInitialized else .noData) →
    (regs g t).raw = (regs g s).raw ∧ (regs g t).loaded = (regs g s).loaded ∧
    exec .smp u = .next { u with err := c, resp := .code c } ∧ u.script = rest ∧
    ((∀ e ∈ between, isReset e = false) →
      u.drv ≠ .uninit ∧ (regs g u).raw = (regs g s).raw ∧ (regs g u).loaded = (regs g s).loaded)

/-- The data bytes of a load whose `BST` is not 0 are ignored (R75). -/
def Obligations.FailedLoadIgnoresBytes : Prop :=
  ∀ (g : Group) (s : State) (bst d0 d1 d2 d3 d4 d5 e0 e1 e2 e3 e4 e5 : Byte), bst ≠ 0#8 →
    exec (loadInstr g bst d0 d1 d2 d3 d4 d5) s = exec (loadInstr g bst e0 e1 e2 e3 e4 e5) s

/-- The groups are isolated: a command of one group reads and writes nothing of the other (R101, R103). -/
def Obligations.GroupsAreIsolated : Prop :=
  ∀ (s t : State) (r : GroupRegs) (bst d0 d1 d2 d3 d4 d5 : Byte),
    (∀ i, i = .lda bst d0 d1 d2 d3 d4 d5 ∨ i = .cva → exec i s = .next t →
      t.gyro = s.gyro ∧ exec i { s with gyro := r } = .next { t with gyro := r }) ∧
    (∀ i, i = .ldg bst d0 d1 d2 d3 d4 d5 ∨ i = .cvg → exec i s = .next t →
      t.accel = s.accel ∧ exec i { s with accel := r } = .next { t with accel := r })

/-- No command reads an output file: what the files held has no influence on anything but what they hold (C6, R37). -/
def Obligations.OutputsAreNeverRead : Prop :=
  ∀ (i : Instr) (s s' t : State), eraseOut s = eraseOut s' → exec i s = .next t →
    ∃ t', exec i s' = .next t' ∧ eraseOut t = eraseOut t'

/-! ### The pair decoder (spec 41_decode) -/

/-- `dec16(h, l) = {h, l}`, each byte unsigned, and its value is the two's-complement one; in a wider datapath the value is
that of the sign-extended pattern, whose higher bits all copy h[7] (R102). -/
def Obligations.PairDecoder : Prop :=
  ∀ h l : Byte, dec16 h l = (h.zeroExtend 16 <<< 8) ||| l.zeroExtend 16 ∧
    dec16 h l = h ++ l ∧ (dec16 h l).toNat = 256 * h.toNat + l.toNat ∧
    s16 (dec16 h l) = (dec16 h l).toInt ∧ s16 (dec16 h l) = 256 * h.toInt + l.toNat ∧
    (dec16 h l).getLsbD 15 = h.getLsbD 7 ∧ IsCount (s16 (dec16 h l)) ∧
    ∀ n : Nat, 16 ≤ n → ((dec16 h l).signExtend n).toInt = s16 (dec16 h l) ∧
      ∀ k : Nat, 15 ≤ k → k < n → ((dec16 h l).signExtend n).getLsbD k = h.getLsbD 7

/-- The decoder is a bijection between byte pairs and 16-bit values, with the boundary cases of the table (R104). -/
def Obligations.DecoderIsBijection : Prop :=
  (∀ n : Int, IsCount n → s16 (dec16 (hi8 (u16 n)) (lo8 (u16 n))) = n) ∧
  (∀ h l : Byte, IsCount (s16 (dec16 h l)) ∧ hi8 (u16 (s16 (dec16 h l))) = h ∧ lo8 (u16 (s16 (dec16 h l))) = l) ∧
  dec16 0x00#8 0x00#8 = 0x0000#16 ∧ s16 0x0000#16 = 0 ∧
  dec16 0xFF#8 0xFF#8 = 0xFFFF#16 ∧ s16 0xFFFF#16 = -1 ∧
  dec16 0x7F#8 0xFF#8 = 0x7FFF#16 ∧ s16 0x7FFF#16 = 32767 ∧
  dec16 0x80#8 0x00#8 = 0x8000#16 ∧ s16 0x8000#16 = -32768 ∧
  dec16 0x00#8 0x80#8 = 0x0080#16 ∧ s16 0x0080#16 = 128 ∧
  dec16 0x80#8 0xFF#8 = 0x80FF#16 ∧ s16 0x80FF#16 = -32513 ∧
  dec16 0xFF#8 0x00#8 = 0xFF00#16 ∧ s16 0xFF00#16 = -256 ∧
  dec16 0x00#8 0x01#8 = 0x0001#16 ∧ s16 0x0001#16 = 1

/-! ### Binary64 arithmetic and the converter (spec 00_scope R8, R15; 42_convert) -/

/-- `RNE64(x)` is the binary64 value nearest the real x; when two are equally near, it is the one whose fraction's least
significant bit is 0 (R15). That patterns with exponent field 0 are read as IEEE 754 has it is the model's choice (log 10). -/
def Obligations.RoundsToNearestEven : Prop :=
  ∀ (x : ℚ) (b : F64), |x| ≤ 2 ^ 1023 → Finite64 b →
    Finite64 (rne64 x) ∧ |realOf (rne64 x) - x| ≤ |realOf b - x| ∧
    (|realOf (rne64 x) - x| = |realOf b - x| → realOf b ≠ realOf (rne64 x) → fracOf (rne64 x) % 2 = 0)

/-- `f64(n)` is exactly n; `a /R b` and `a *R b` are `RNE64` of the exact quotient and product (R15). For operands no legal
build has, the reading of patterns and the sign of zero are the model's choice (log 9, log 10). -/
def Obligations.ArithmeticIsCorrectlyRounded : Prop :=
  (∀ n : Int, IsCount n → realOf (f64 n) = n) ∧
  (∀ a b : F64, realOf b ≠ 0 → divR a b = rne64 (realOf a / realOf b)) ∧
  (∀ a b : F64, mulR a b = rne64 (realOf a * realOf b))

/-- The constraints of R8, in reals. -/
def Obligations.LegalBuildRanges : Prop :=
  ∀ p : Params, legalParams p = true ↔
    (∀ fs : BitVec 2, 1 ≤ realOf (p.sensA.get fs) ∧ realOf (p.sensA.get fs) ≤ 32768 ∧
      1 ≤ realOf (p.sensG.get fs) ∧ realOf (p.sensG.get fs) ≤ 32768) ∧
    1 / 2 ^ 16 ≤ realOf p.grav ∧ realOf p.grav ≤ 2 ^ 16 ∧
    1 / 2 ^ 16 ≤ realOf p.deg2rad ∧ realOf p.deg2rad ≤ 2 ^ 16

/-- The parameter values of this hardware (R8) are legal, and give the reals the table names: exactly, or as the nearest
binary64 values (`DEG2RAD` is within half a unit in the last place, `2^-59`, of π/180). The `FUSED` constants are those
of R123's table. R8 marks seven sensitivities and the pattern of `DEG2RAD` as general knowledge (log 2). -/
def Obligations.DefaultBuild : Prop :=
  legalParams defaultParams = true ∧ defaultParams.accelUnit = .mps2 ∧ defaultParams.convMode = .twoStep ∧
  realOf (defaultParams.sensA.get 0#2) = 16384 ∧ realOf (defaultParams.sensA.get 1#2) = 8192 ∧
  realOf (defaultParams.sensA.get 2#2) = 4096 ∧ realOf (defaultParams.sensA.get 3#2) = 2048 ∧
  realOf (defaultParams.sensG.get 0#2) = 131 ∧ realOf (defaultParams.sensG.get 1#2) = 655 / 10 ∧
  defaultParams.sensG.get 2#2 = rne64 (328 / 10) ∧ defaultParams.sensG.get 3#2 = rne64 (164 / 10) ∧
  defaultParams.grav = rne64 (980665 / 100000) ∧ |((realOf defaultParams.deg2rad : ℚ) : ℝ) - Real.pi / 180| < 1 / 2 ^ 59 ∧
  fusedKA defaultParams 0#2 = 0x3F439D013A92A305#64 ∧ fusedKA defaultParams 1#2 = 0x3F539D013A92A305#64 ∧
  fusedKA defaultParams 2#2 = 0x3F639D013A92A305#64 ∧ fusedKA defaultParams 3#2 = 0x3F739D013A92A305#64 ∧
  fusedKA1 defaultParams 0#2 = 0x3F10000000000000#64 ∧ fusedKA1 defaultParams 1#2 = 0x3F20000000000000#64 ∧
  fusedKA1 defaultParams 2#2 = 0x3F30000000000000#64 ∧ fusedKA1 defaultParams 3#2 = 0x3F40000000000000#64 ∧
  fusedKG defaultParams 0#2 = 0x3F21767FA477CE63#64 ∧ fusedKG defaultParams 1#2 = 0x3F31767FA477CE63#64 ∧
  fusedKG defaultParams 2#2 = 0x3F416FAF0EC0FD4B#64 ∧ fusedKG defaultParams 3#2 = 0x3F516FAF0EC0FD4B#64

/-- `cvtA` (R121): for a legal build and a count, the source formula in its order, each operation rounded once, or the one
rounded product with the fused constant. -/
def Obligations.AccelConversion : Prop :=
  ∀ (p : Params) (fs : BitVec 2) (r : Int) (S : ℚ), legalParams p = true → IsCount r → S = realOf (p.sensA.get fs) →
    (p.accelUnit = .mps2 → p.convMode = .twoStep →
      cvtA p fs r = rne64 (realOf (rne64 (r / S)) * realOf p.grav)) ∧
    (p.accelUnit = .mps2 → p.convMode = .fused →
      cvtA p fs r = rne64 (r * realOf (rne64 (realOf p.grav / S)))) ∧
    (p.accelUnit = .g → p.convMode = .twoStep → cvtA p fs r = rne64 (r / S)) ∧
    (p.accelUnit = .g → p.convMode = .fused → cvtA p fs r = rne64 (r * realOf (rne64 (1 / S))))

/-- `cvtG` (R122): rad/s for a legal build and a count. -/
def Obligations.GyroConversion : Prop :=
  ∀ (p : Params) (fs : BitVec 2) (r : Int) (S : ℚ), legalParams p = true → IsCount r → S = realOf (p.sensG.get fs) →
    (p.convMode = .twoStep → cvtG p fs r = rne64 (realOf (rne64 (r / S)) * realOf p.deg2rad)) ∧
    (p.convMode = .fused → cvtG p fs r = rne64 (r * realOf (rne64 (realOf p.deg2rad / S))))

/-- The three lanes of a group are computed independently at one scale; in `FUSED` mode the converter is a 3x3 diagonal matrix
times the vector of counts, each product rounded once (R124). -/
def Obligations.FusedIsDiagonalMatrix : Prop :=
  (∀ (g : Group) (p : Params) (fs : BitVec 2) (t : Triple 16),
    cvtTriple g p fs t = ⟨cvt g p fs t.x.toInt, cvt g p fs t.y.toInt, cvt g p fs t.z.toInt⟩) ∧
  ∀ (p : Params) (fs : BitVec 2) (t : Triple 16) (v : Fin 3 → ℚ), legalParams p = true → p.convMode = .fused →
    v = ![(t.x.toInt : ℚ), (t.y.toInt : ℚ), (t.z.toInt : ℚ)] →
    ∀ (g : Group) (K : ℚ) (u : Fin 3 → ℚ),
      K = (match g with
        | .accel => match p.accelUnit with
          | .mps2 => realOf (fusedKA p fs)
          | .g => realOf (fusedKA1 p fs)
        | .gyro => realOf (fusedKG p fs)) →
      u = (Matrix.diagonal ![K, K, K]).mulVec v →
      cvtTriple g p fs t = ⟨rne64 (u 0), rne64 (u 1), rne64 (u 2)⟩

/-- Exceptional cases cannot arise (R125): every constant, intermediate and result is zero or a normal number of
magnitude in [2^-31, 2^31]. -/
def Obligations.NoExceptionalValues : Prop :=
  ∀ (p : Params) (fs : BitVec 2) (r : Int), legalParams p = true → IsCount r →
    ZeroOrInRange (f64 r) ∧ ZeroOrInRange (divR (f64 r) (p.sensA.get fs)) ∧
    ZeroOrInRange (divR (f64 r) (p.sensG.get fs)) ∧
    ZeroOrInRange (fusedKA p fs) ∧ ZeroOrInRange (fusedKA1 p fs) ∧ ZeroOrInRange (fusedKG p fs) ∧
    ZeroOrInRange (cvtA p fs r) ∧ ZeroOrInRange (cvtG p fs r)

/-- Sign and zero (R126): zero gives +0.0 and -0.0 never occurs; a nonzero count gives a nonzero value of its sign; the
conversion of the opposite count is the opposite value. -/
def Obligations.SignAndZero : Prop :=
  ∀ (g : Group) (p : Params) (fs : BitVec 2) (r : Int), legalParams p = true → IsCount r →
    cvt g p fs 0 = 0#64 ∧ cvt g p fs r ≠ 0x8000000000000000#64 ∧
    (0 < r → 0 < realOf (cvt g p fs r)) ∧ (r < 0 → realOf (cvt g p fs r) < 0) ∧
    (-32767 ≤ r → realOf (cvt g p fs (-r)) = -realOf (cvt g p fs r) ∧
      (r ≠ 0 → cvt g p fs (-r) = cvt g p fs r ^^^ 0x8000000000000000#64))

/-- Scale-correctness (R127): where the sensitivity is a count, `TWO_STEP` gives the constant bit for bit, and so does
`FUSED` where the sensitivity is a power of two. -/
def Obligations.ScaleCorrectness : Prop :=
  ∀ (p : Params) (fs : BitVec 2) (r : Int), legalParams p = true → IsCount r →
    (realOf (p.sensA.get fs) = r → (p.convMode = .twoStep ∨ ∃ k, IsPowerOfTwo (p.sensA.get fs) k) →
      cvtA p fs r = (match p.accelUnit with | .mps2 => p.grav | .g => one64)) ∧
    (realOf (p.sensG.get fs) = r → (p.convMode = .twoStep ∨ ∃ k, IsPowerOfTwo (p.sensG.get fs) k) →
      cvtG p fs r = p.deg2rad)

/-- The shift path gives, for every power-of-two sensitivity, the bits of the division, and exactly; and for every
sensitivity in R8's range the division is the correctly rounded quotient of the fixed-divisor path (R128). That the shift path
gives +0.0 for a count of 0 is the model's deduction (log 22). -/
def Obligations.ShiftPathIsDivision : Prop :=
  (∀ (S : F64) (k : Nat) (r : Int), k ≤ 15 → IsPowerOfTwo S k → IsCount r →
    divR (f64 r) S = shiftQuot r k ∧ realOf (shiftQuot r k) = r / 2 ^ k) ∧
  (∀ (S : F64) (r : Int), sensOk S = true → IsCount r → divR (f64 r) S = rne64 (r / realOf S))

/-- Under a power-of-two sensitivity `FUSED` and `TWO_STEP` give the same bits (R129); so with the parameters of this
hardware the accelerometer results do not depend on `CONV_MODE`. -/
def Obligations.FusedAgreesOnPowersOfTwo : Prop :=
  (∀ (p : Params) (fs : BitVec 2) (r : Int) (k : Nat), legalParams p = true → IsCount r →
    (IsPowerOfTwo (p.sensA.get fs) k →
      cvtA { p with convMode := .fused } fs r = cvtA { p with convMode := .twoStep } fs r) ∧
    (IsPowerOfTwo (p.sensG.get fs) k →
      cvtG { p with convMode := .fused } fs r = cvtG { p with convMode := .twoStep } fs r)) ∧
  (∀ (fs : BitVec 2) (r : Int) (m : ConvMode) (u : AccelUnit), IsCount r →
    cvtA { defaultParams with convMode := m, accelUnit := u } fs r = cvtA { defaultParams with accelUnit := u } fs r)

/-! ### Invariants -/

/-- The invariants hold right after reset, for every build and every script of the host. -/
def Obligations.InvariantsAtReset : Prop :=
  ∀ (p : Params) (script : List HostEvent),
    Inv (bootState p script) ∧ OutputsAreConversions (bootState p script) ∧
    bootState defaultParams [] = State.reset

/-- Every step keeps the invariant of the block (R22 to R29, R52, R90, R130). -/
def Obligations.StepKeepsInvariant : Prop :=
  ∀ s t : State, Inv s → step s = .next t → Inv t

/-- Every step takes each group's output file and raw file whole (R55, R124, R133). The output file stays as it is, or the
command that converts the group writes it from the group's own raw file at its own range, or a reset clears it. The raw file
stays as it is, or a successful load writes all its axes from the bytes of that one word, or a reset clears it. So the
conversions at the active ranges are kept. -/
def Obligations.StepKeepsWholeSamples : Prop :=
  ∀ s t : State, step s = .next t →
    (∀ g : Group,
      ((regs g t).out = (regs g s).out ∧ (regs g t).outv = (regs g s).outv) ∨
      ((regs g t).out = cvtTriple g s.params (regs g s).fs (regs g s).raw ∧ (regs g t).outv = true ∧
        (regs g t).raw = (regs g s).raw ∧ (regs g t).fs = (regs g s).fs ∧ t.err = .ok ∧
        ∃ w rest i, s.script = .cmd w :: rest ∧ decode w = .command i ∧ (i = convInstr g ∨ i = .smp)) ∨
      ((regs g t).out = ⟨0#64, 0#64, 0#64⟩ ∧ (regs g t).outv = false ∧
        ∃ e rest, s.script = e :: rest ∧ isReset e = true)) ∧
    (∀ g : Group,
      (regs g t).raw = (regs g s).raw ∨
      (∃ w rest d0 d1 d2 d3 d4 d5, s.script = .cmd w :: rest ∧
        decode w = .command (loadInstr g 0#8 d0 d1 d2 d3 d4 d5) ∧ t.err = .ok ∧
        (regs g t).raw = ⟨d0 ++ d1, d2 ++ d3, d4 ++ d5⟩) ∨
      ((regs g t).raw = ⟨0#16, 0#16, 0#16⟩ ∧ ∃ e rest, s.script = e :: rest ∧ isReset e = true)) ∧
    (Inv s → OutputsAreConversions s → OutputsAreConversions t)

/-- In a legal build, if every output register holds +0.0 or a normal number of magnitude in [2^-31, 2^31], then so after any
step; a boot state of a legal build is such a state, and so is every state a run from it reaches (R125). -/
def Obligations.OutputsAlwaysInRange : Prop :=
  (∀ s t : State, OutputsInRange s → step s = .next t → OutputsInRange t) ∧
  (∀ (p : Params) (script : List HostEvent), legalParams p = true → OutputsInRange (bootState p script)) ∧
  (∀ (p : Params) (script : List HostEvent) (k : Nat) (t : State), legalParams p = true →
    Host.Core.run core k (bootState p script) = .next t → OutputsInRange t)

/-- Once configured, the active ranges and the build stay as they are on every run without a reset (R23, R90). -/
def Obligations.RangesFixedUntilReset : Prop :=
  ∀ (s t : State) (k : Nat), s.drv ≠ .uninit → (∀ e ∈ s.script, isReset e = false) →
    Host.Core.run core k s = .next t →
    t.drv ≠ .uninit ∧ t.accel.fs = s.accel.fs ∧ t.gyro.fs = s.gyro.fs ∧ t.params = s.params

/-! ### The host's procedures and the assembler (spec 30_encoding R80, R81; 40_config R91, R92; 70 R184)

The procedures are host duties; their form is the model's (log 17), and the assembler takes no part in `step` (log 18). -/

/-- `sample()` before `initialize()` returns `NOT_INITIALIZED`, makes no bus read and leaves the block as it is (R153,
R184). -/
def Obligations.SampleBeforeInit : Prop :=
  ∀ (a g : BusRead) (s : State), s.drv = .uninit →
    driverSample a g s = { block := s, result := .error .notInitialized, busReads := 0 }

/-- `sample()` with two good reads returns the six conversions of those twelve bytes (R184, R133). -/
def Obligations.SampleReturnsBothGroups : Prop :=
  ∀ (s : State) (a0 a1 a2 a3 a4 a5 g0 g1 g2 g3 g4 g5 : Byte), s.drv ≠ .uninit →
    ∃ t, driverSample (.ok a0 a1 a2 a3 a4 a5) (.ok g0 g1 g2 g3 g4 g5) s = {
        block := t
        result := .ok ⟨cvtTriple .accel s.params s.accel.fs ⟨a0 ++ a1, a2 ++ a3, a4 ++ a5⟩,
          cvtTriple .gyro s.params s.gyro.fs ⟨g0 ++ g1, g2 ++ g3, g4 ++ g5⟩⟩
        busReads := 2 } ∧
      t.drv = .sampling ∧ t.err = .ok ∧ t.accel.fresh = false ∧ t.gyro.fresh = false

/-- `sample()` stops at the first bus error and returns it; the previous sample stays as it was (R184, R132). -/
def Obligations.SampleStopsAtFirstError : Prop :=
  ∀ (s : State) (a g : BusRead) (c : ErrCode), s.drv ≠ .uninit → (c = .busAddr ∨ c = .busRead) →
    (a = (if c = .busAddr then .addressWriteFailed else .readFailed) →
      ∃ t, driverSample a g s = { block := t, result := .error c, busReads := 1 } ∧
        t.accel = { s.accel with fresh := false } ∧ t.gyro = s.gyro) ∧
    (∀ d0 d1 d2 d3 d4 d5, a = .ok d0 d1 d2 d3 d4 d5 →
      g = (if c = .busAddr then .addressWriteFailed else .readFailed) →
      ∃ t, driverSample a g s = { block := t, result := .error c, busReads := 2 } ∧
        t.gyro = { s.gyro with fresh := false } ∧ t.accel.out = s.accel.out ∧ t.accel.outv = s.accel.outv)

/-- A failed `initialize()` reports the first step that failed, issues no CFG and leaves the block in `UNINIT`, and a later successful one succeeds (R91,
R92). -/
def Obligations.InitRecovers : Prop :=
  ∀ (w1 w2 w3 : Bool) (s t : State) (o : InitOutcome) (afs gfs afs' gfs' : BitVec 2), s.drv = .uninit →
    (w1 && w2 && w3) = false → driverInit w1 w2 w3 afs gfs s = (t, o) →
    t = s ∧ o = .configWriteFailed (if w1 = false then 1 else if w2 = false then 2 else 3) ∧
    ∃ u, driverInit true true true afs' gfs' t = (u, .ok) ∧ u.drv = .configured ∧ u.accel.fs = afs' ∧ u.gyro.fs = gfs'

/-- What each assembler line becomes (R80, R81), and what the assembler refuses: a line that assembles gives the word of the
command its form names with exactly the operands written, `BST` = 0 for bytes and all bytes 0 for a bus status; `.word` gives
its literal, and only `.word` a reserved encoding; values outside the ranges are refused. -/
def Obligations.AssemblerMakesCommands : Prop :=
  (∀ (l : AsmLine) (w : Word), assemble l = some w → (∀ v, l ≠ .word v) →
    ∃ i, WellFormed i = true ∧ decode w = .command i) ∧
  (∀ a g : Int, assemble (.cfg a g) = none ↔ ¬ (0 ≤ a ∧ a ≤ 3 ∧ 0 ≤ g ∧ g ≤ 3)) ∧
  (∀ a g : Int, assemble (.init a g) = assemble (.cfg a g)) ∧
  (∀ (grp : Group) (d0 d1 d2 d3 d4 d5 : Int), assemble (.load grp d0 d1 d2 d3 d4 d5) = none ↔
    ¬ ∀ d ∈ [d0, d1, d2, d3, d4, d5], 0 ≤ d ∧ d ≤ 255) ∧
  (∀ (grp : Group) (b : Int), assemble (.loadFailed grp b) = none ↔ ¬ (b = 1 ∨ b = 2)) ∧
  (∀ (grp : Group) (x y z : Int), assemble (.loadI16 grp x y z) = none ↔ ¬ (IsCount x ∧ IsCount y ∧ IsCount z)) ∧
  (∀ v : Int, assemble (.word v) = none ↔ ¬ (0 ≤ v ∧ v < 2 ^ 64)) ∧
  (∀ (a g : Int) (w : Word), assemble (.cfg a g) = some w →
    ∃ afs gfs, decode w = .command (.cfg afs gfs) ∧ (afs.toNat : Int) = a ∧ (gfs.toNat : Int) = g) ∧
  (∀ (grp : Group) (d0 d1 d2 d3 d4 d5 : Int) (w : Word), assemble (.load grp d0 d1 d2 d3 d4 d5) = some w →
    ∃ b0 b1 b2 b3 b4 b5, decode w = .command (loadInstr grp 0#8 b0 b1 b2 b3 b4 b5) ∧
      (b0.toNat : Int) = d0 ∧ (b1.toNat : Int) = d1 ∧ (b2.toNat : Int) = d2 ∧ (b3.toNat : Int) = d3 ∧
      (b4.toNat : Int) = d4 ∧ (b5.toNat : Int) = d5) ∧
  (∀ (grp : Group) (b : Int) (w : Word), assemble (.loadFailed grp b) = some w →
    ∃ bst, decode w = .command (loadInstr grp bst 0#8 0#8 0#8 0#8 0#8 0#8) ∧ (bst.toNat : Int) = b) ∧
  (∀ (grp : Group) (x y z : Int) (w : Word), assemble (.loadI16 grp x y z) = some w →
    ∃ b0 b1 b2 b3 b4 b5, decode w = .command (loadInstr grp 0#8 b0 b1 b2 b3 b4 b5) ∧
      s16 (dec16 b0 b1) = x ∧ s16 (dec16 b2 b3) = y ∧ s16 (dec16 b4 b5) = z) ∧
  (∃ w, assemble .cva = some w ∧ decode w = .command .cva) ∧
  (∃ w, assemble .cvg = some w ∧ decode w = .command .cvg) ∧
  (∃ w, assemble .smp = some w ∧ decode w = .command .smp) ∧
  (∀ (v : Int) (w : Word), assemble (.word v) = some w → (w.toNat : Int) = v)

/-- The source's round trip, through the assembler and the block: three counts assembled with `.i16` and issued are the
three counts in the raw file (R81, R104). -/
def Obligations.CountsRoundTrip : Prop :=
  ∀ (grp : Group) (x y z : Int) (s : State), IsCount x → IsCount y → IsCount z → s.drv ≠ .uninit →
    ∃ w t, assemble (.loadI16 grp x y z) = some w ∧ cmdIssue w s = .next t ∧ t.err = .ok ∧
      s16 (regs grp t).raw.x = x ∧ s16 (regs grp t).raw.y = y ∧ s16 (regs grp t).raw.z = z
end

