-- ==== Sys2Proof/Laws/Float.lean ====
section
/-!
SUPPORT. Sys2Proof/Laws/Float.lean: what each piece of the rounding does, as facts about rationals, for proofs about the
converter to cite instead of unfolding `roundTo`.
-/
namespace Sys2Proof.Laws

open Sys2Proof.Machine

/-- A power of two as the two natural powers the definitions use. -/
theorem two_zpow_eq (e : Int) : (2 : ℚ) ^ e = (2 : ℚ) ^ e.toNat / 2 ^ (-e).toNat := by
  rcases le_total 0 e with h | h
  · obtain ⟨k, rfl⟩ := Int.eq_ofNat_of_zero_le h
    simp
  · obtain ⟨k, hk⟩ := Int.eq_ofNat_of_zero_le (neg_nonneg.2 h)
    obtain rfl : e = -(k : Int) := by omega
    simp

/-- The scaled fraction of `floorLog2` and `roundAt` is `(n/d) / 2^e`. -/
theorem scaled_eq (e : Int) (n d : Nat) :
    ((n * 2 ^ (-e).toNat : Nat) : ℚ) / ((d * 2 ^ e.toNat : Nat) : ℚ) = (n : ℚ) / d / 2 ^ e := by
  rw [two_zpow_eq]
  push_cast
  field_simp

/-- The comparison in `floorLog2`. -/
theorem scaled_lt {n d : Nat} (hd : 0 < d) (e : Int) :
    n * 2 ^ (-e).toNat < d * 2 ^ e.toNat ↔ (n : ℚ) / d < 2 ^ e := by
  have hd' : (0 : ℚ) < d := by exact_mod_cast hd
  rw [two_zpow_eq, div_lt_div_iff₀ hd' (by positivity), mul_comm _ (d : ℚ)]
  exact_mod_cast Iff.rfl

/-- `floorLog2` finds the leading bit. -/
theorem floorLog2_spec {n d : Nat} (hn : 0 < n) (hd : 0 < d) :
    (2 : ℚ) ^ floorLog2 n d ≤ (n : ℚ) / d ∧ (n : ℚ) / d < 2 ^ (floorLog2 n d + 1) := by
  have hd' : (0 : ℚ) < d := by exact_mod_cast hd
  have n1 : (2 : ℚ) ^ n.log2 ≤ n := by exact_mod_cast Nat.log2_self_le hn.ne'
  have n2 : (n : ℚ) < 2 ^ (n.log2 + 1) := by exact_mod_cast Nat.lt_log2_self
  have d1 : (2 : ℚ) ^ d.log2 ≤ d := by exact_mod_cast Nat.log2_self_le hd.ne'
  have d2 : (d : ℚ) < 2 ^ (d.log2 + 1) := by exact_mod_cast Nat.lt_log2_self
  have hup : (n : ℚ) / d < 2 ^ ((n.log2 : Int) - d.log2 + 1) := by
    rw [div_lt_iff₀ hd', zpow_add₀ two_ne_zero, zpow_sub₀ two_ne_zero, zpow_natCast, zpow_natCast, zpow_one]
    calc (n : ℚ) < 2 ^ (n.log2 + 1) := n2
      _ = 2 ^ n.log2 / 2 ^ d.log2 * 2 * 2 ^ d.log2 := by field_simp; ring
      _ ≤ _ := by gcongr
  have hlo : (2 : ℚ) ^ ((n.log2 : Int) - d.log2 - 1) ≤ (n : ℚ) / d := by
    rw [le_div_iff₀ hd', zpow_sub₀ two_ne_zero, zpow_sub₀ two_ne_zero, zpow_natCast, zpow_natCast, zpow_one]
    calc (2 : ℚ) ^ n.log2 / 2 ^ d.log2 / 2 * d ≤ 2 ^ n.log2 / 2 ^ d.log2 / 2 * 2 ^ (d.log2 + 1) := by gcongr
      _ = 2 ^ n.log2 := by field_simp; ring
      _ ≤ n := n1
  unfold floorLog2
  dsimp only
  split
  · rename_i h
    exact ⟨hlo, by simpa using (scaled_lt hd _).1 h⟩
  · rename_i h
    exact ⟨not_lt.1 fun h' => h ((scaled_lt hd _).2 h'), hup⟩

/-- The leading bit is unique. -/
theorem floorLog2_unique {n d : Nat} (hn : 0 < n) (hd : 0 < d) {e : Int} (h1 : (2 : ℚ) ^ e ≤ (n : ℚ) / d)
    (h2 : (n : ℚ) / d < 2 ^ (e + 1)) : floorLog2 n d = e := by
  obtain ⟨s1, s2⟩ := floorLog2_spec hn hd
  have a := (zpow_lt_zpow_iff_right₀ (one_lt_two : (1 : ℚ) < 2)).1 (h1.trans_lt s2)
  have b := (zpow_lt_zpow_iff_right₀ (one_lt_two : (1 : ℚ) < 2)).1 (s1.trans_lt h2)
  omega

/-- Rounding to an integer: at most one half away, and even when exactly one half away. -/
theorem roundQuot_spec (n : Nat) {d : Nat} (hd : 0 < d) :
    |(roundQuot n d : ℚ) - n / d| ≤ 1 / 2 ∧
      (|(roundQuot n d : ℚ) - n / d| = 1 / 2 → roundQuot n d % 2 = 0) := by
  have hd' : (0 : ℚ) < d := by exact_mod_cast hd
  have hr : ((n % d : Nat) : ℚ) < d := by exact_mod_cast Nat.mod_lt n hd
  have hn : (n : ℚ) / d = (n / d : Nat) + ((n % d : Nat) : ℚ) / d := by
    rw [eq_comm, ← sub_eq_zero]
    have : (n : ℚ) = d * (n / d : Nat) + (n % d : Nat) := by exact_mod_cast (Nat.div_add_mod n d).symm
    rw [this]
    field_simp
    ring
  have h0 : (0 : ℚ) ≤ ((n % d : Nat) : ℚ) / d := by positivity
  rw [hn]
  unfold roundQuot
  split
  · rename_i h
    have h' : ((n % d : Nat) : ℚ) / d < 1 / 2 := by
      rw [div_lt_div_iff₀ hd' two_pos]
      have : ((2 * (n % d) : Nat) : ℚ) < d := by exact_mod_cast h
      push_cast at this
      linarith
    rw [show ((n / d : Nat) : ℚ) - ((n / d : Nat) + ((n % d : Nat) : ℚ) / d) = -(((n % d : Nat) : ℚ) / d) by ring,
      abs_neg, abs_of_nonneg h0]
    exact ⟨h'.le, fun e => absurd e h'.ne⟩
  · split
    · rename_i h
      have h' : 1 / 2 < ((n % d : Nat) : ℚ) / d := by
        rw [div_lt_div_iff₀ two_pos hd']
        have : (d : ℚ) < ((2 * (n % d) : Nat) : ℚ) := by exact_mod_cast h
        push_cast at this
        linarith
      have h1 : ((n % d : Nat) : ℚ) / d < 1 := by rwa [div_lt_one hd']
      rw [show ((n / d + 1 : Nat) : ℚ) - ((n / d : Nat) + ((n % d : Nat) : ℚ) / d) = 1 - ((n % d : Nat) : ℚ) / d by
        push_cast; ring, abs_of_nonneg (by linarith)]
      exact ⟨by linarith, fun e => absurd e (by linarith)⟩
    · rename_i h1 h2
      have hh : ((n % d : Nat) : ℚ) / d = 1 / 2 := by
        have : 2 * (n % d) = d := by omega
        have : (2 : ℚ) * ((n % d : Nat) : ℚ) = d := by exact_mod_cast this
        rw [← this]
        have : ((n % d : Nat) : ℚ) ≠ 0 := by
          intro h0
          rw [h0] at this
          linarith
        field_simp
      rw [hh]
      rcases Nat.mod_two_eq_zero_or_one (n / d) with hm | hm
      · rw [hm, Nat.add_zero, show ((n / d : Nat) : ℚ) - ((n / d : Nat) + 1 / 2) = -(1 / 2) by ring, abs_neg,
          abs_of_pos (by norm_num)]
        exact ⟨le_rfl, fun _ => hm⟩
      · rw [hm, show ((n / d + 1 : Nat) : ℚ) - ((n / d : Nat) + 1 / 2) = 1 / 2 by push_cast; ring,
          abs_of_pos (by norm_num)]
        exact ⟨le_rfl, fun _ => by omega⟩

/-- Rounding an exact integer gives it back. -/
theorem roundQuot_exact (m : Nat) {d : Nat} (hd : 0 < d) : roundQuot (m * d) d = m := by
  unfold roundQuot
  rw [Nat.mul_mod_left, Nat.mul_div_cancel m hd, if_pos (by omega)]

/-- Rounding does not depend on how the fraction is written. -/
theorem roundQuot_scale (n d : Nat) {k : Nat} (hk : 0 < k) : roundQuot (k * n) (k * d) = roundQuot n d := by
  unfold roundQuot
  rw [Nat.mul_mod_mul_left, Nat.mul_div_mul_left _ _ hk]
  have h1 : 2 * (k * (n % d)) < k * d ↔ 2 * (n % d) < d := by
    rw [show 2 * (k * (n % d)) = k * (2 * (n % d)) by ring]
    exact Nat.mul_lt_mul_left hk
  have h2 : k * d < 2 * (k * (n % d)) ↔ d < 2 * (n % d) := by
    rw [show 2 * (k * (n % d)) = k * (2 * (n % d)) by ring]
    exact Nat.mul_lt_mul_left hk
  simp only [h1, h2]

/-- The leading bit does not depend on how the fraction is written. -/
theorem floorLog2_scale {n d k : Nat} (hn : 0 < n) (hd : 0 < d) (hk : 0 < k) :
    floorLog2 (k * n) (k * d) = floorLog2 n d := by
  have hk' : (k : ℚ) ≠ 0 := by exact_mod_cast hk.ne'
  have e : ((k * n : Nat) : ℚ) / ((k * d : Nat) : ℚ) = (n : ℚ) / d := by
    push_cast
    exact mul_div_mul_left _ _ hk'
  obtain ⟨h1, h2⟩ := floorLog2_spec hn hd
  exact floorLog2_unique (Nat.mul_pos hk hn) (Nat.mul_pos hk hd) (e ▸ h1) (e ▸ h2)

/-- The rounded magnitude does not depend on how the fraction is written. -/
theorem rneMag_scale {n d k : Nat} (hn : 0 < n) (hd : 0 < d) (hk : 0 < k) : rneMag (k * n) (k * d) = rneMag n d := by
  unfold rneMag roundAt ulpExp
  rw [floorLog2_scale hn hd hk, Nat.mul_assoc, Nat.mul_assoc, roundQuot_scale _ _ hk]

/-- `roundTo` depends on the real only. -/
theorem roundTo_scale (neg : Bool) {n d k : Nat} (hd : 0 < d) (hk : 0 < k) :
    roundTo neg (k * n) (k * d) = roundTo neg n d := by
  rcases Nat.eq_zero_or_pos n with rfl | hn
  · simp [roundTo]
  · unfold roundTo
    rw [rneMag_scale hn hd hk, Nat.gcd_mul_left, Nat.mul_div_mul_left _ _ hk, Nat.mul_div_mul_left _ _ hk]
    simp [hn.ne', hk.ne']

/-- Two fractions of the same real round to the same pattern. -/
theorem roundTo_congr (neg : Bool) {n d n' d' : Nat} (hd : 0 < d) (hd' : 0 < d') (h : n * d' = n' * d) :
    roundTo neg n d = roundTo neg n' d' := by
  rw [← roundTo_scale neg hd hd', ← roundTo_scale neg hd' hd, Nat.mul_comm d' n, h, Nat.mul_comm d n',
    Nat.mul_comm d d']

/-- The denominator of a pattern's magnitude is positive. -/
theorem denOf_pos (b : F64) : 0 < denOf b := Nat.pow_pos (by decide)

/-- The magnitude of a pattern as significand times a power of two. -/
theorem abs_realOf (b : F64) : |realOf b| = (numOf b : ℚ) / denOf b := by
  have h : (0 : ℚ) ≤ (numOf b : ℚ) / denOf b := by positivity
  unfold realOf
  split
  · rw [abs_neg, abs_of_nonneg h]
  · exact abs_of_nonneg h

/-- The magnitude of a pattern is its significand times the power of two of its exponent. -/
theorem num_div_den (b : F64) : (numOf b : ℚ) / denOf b = sigOf b * 2 ^ ((max (expOf b) 1 : Nat) - 1075 : Int) := by
  unfold numOf denOf
  rw [two_zpow_eq, show (((max (expOf b) 1 : Nat) : Int) - 1075).toNat = max (expOf b) 1 - 1075 by omega,
    show (-(((max (expOf b) 1 : Nat) : Int) - 1075)).toNat = 1075 - max (expOf b) 1 by omega]
  push_cast
  ring

/-- A pattern written as a sign and a magnitude below `2^63`, as a number. -/
theorem toNat_mk (neg : Bool) {m : Nat} (hm : m < 2 ^ 63) :
    (BitVec.ofBool neg ++ BitVec.ofNat 63 m : F64).toNat = neg.toNat * 2 ^ 63 + m := by
  have : (BitVec.ofNat 63 m).toNat = m := by
    rw [BitVec.toNat_ofNat]
    exact Nat.mod_eq_of_lt hm
  simp only [BitVec.toNat_append, this]
  rw [← Nat.shiftLeft_add_eq_or_of_lt hm, Nat.shiftLeft_eq]
  cases neg <;> rfl

/-- The exponent field of such a pattern. -/
theorem expOf_mk (neg : Bool) {m : Nat} (hm : m < 2 ^ 63) :
    expOf (BitVec.ofBool neg ++ BitVec.ofNat 63 m) = m / 2 ^ 52 := by
  unfold expOf
  rw [BitVec.extractLsb'_toNat, toNat_mk neg hm, Nat.shiftRight_eq_div_pow]
  cases neg <;> simp <;> omega

/-- The fraction field of such a pattern. -/
theorem fracOf_mk (neg : Bool) {m : Nat} (hm : m < 2 ^ 63) :
    fracOf (BitVec.ofBool neg ++ BitVec.ofNat 63 m) = m % 2 ^ 52 := by
  unfold fracOf
  rw [BitVec.extractLsb'_toNat, toNat_mk neg hm]
  cases neg <;> simp
  omega

/-- The sign of such a pattern. -/
theorem signOf_mk (neg : Bool) (m : Nat) : signOf (BitVec.ofBool neg ++ BitVec.ofNat 63 m) = neg := by
  unfold signOf
  rw [show (BitVec.ofBool neg ++ BitVec.ofNat 63 m : F64).getLsbD 63
    = (BitVec.ofBool neg ++ BitVec.ofNat 63 m : BitVec (1 + 63)).getLsbD 63 from rfl, BitVec.getLsbD_append]
  simp

/-- The sign of a real as a factor. -/
def signRat (neg : Bool) : ℚ := if neg then -1 else 1

/-- A pattern's real by sign, significand and exponent. -/
theorem realOf_eq (b : F64) :
    realOf b = signRat (signOf b) * (sigOf b * 2 ^ ((max (expOf b) 1 : Nat) - 1075 : Int)) := by
  rw [← num_div_den]
  unfold realOf signRat
  split <;> ring

/-- The real of the pattern that a unit exponent and a rounded significand make, the carry into the exponent included. -/
theorem realOf_mk (neg : Bool) {e : Int} {M : Nat} (he : -1074 ≤ e) (hM : M ≤ 2 ^ 53) (hn : 2 ^ 52 ≤ M ∨ e = -1074)
    (hm : (e + 1074).toNat * 2 ^ 52 + M < 2 ^ 63) :
    realOf (BitVec.ofBool neg ++ BitVec.ofNat 63 ((e + 1074).toNat * 2 ^ 52 + M)) = signRat neg * (M * 2 ^ e) := by
  rw [realOf_eq, signOf_mk]
  congr 1
  unfold sigOf
  rw [expOf_mk neg hm, fracOf_mk neg hm]
  obtain ⟨k, rfl⟩ : ∃ k : Nat, e = (k : Int) - 1074 := ⟨(e + 1074).toNat, by omega⟩
  simp only [sub_add_cancel, Int.toNat_natCast] at hm ⊢
  rcases Nat.lt_or_ge M (2 ^ 52) with h1 | h1
  · obtain rfl : k = 0 := by omega
    rw [show (0 * 2 ^ 52 + M) / 2 ^ 52 = 0 by omega, show (0 * 2 ^ 52 + M) % 2 ^ 52 = M by omega]
    norm_num
  · rcases Nat.lt_or_ge M (2 ^ 53) with h2 | h2
    · rw [show (k * 2 ^ 52 + M) / 2 ^ 52 = k + 1 by omega, show (k * 2 ^ 52 + M) % 2 ^ 52 = M - 2 ^ 52 by omega,
        if_neg (by omega), show 2 ^ 52 + (M - 2 ^ 52) = M by omega, show max (k + 1) 1 = k + 1 by omega]
      congr 2
      push_cast
      ring
    · obtain rfl : M = 2 ^ 53 := by omega
      rw [show (k * 2 ^ 52 + 2 ^ 53) / 2 ^ 52 = k + 2 by omega, show (k * 2 ^ 52 + 2 ^ 53) % 2 ^ 52 = 0 by omega,
        if_neg (by omega), show max (k + 2) 1 = k + 2 by omega,
        show (((k + 2 : Nat) : Int) - 1075) = ((k : Int) - 1074) + 1 by push_cast; ring, zpow_add₀ two_ne_zero]
      push_cast
      ring

/-- The rounded significand: within one half of the scaled real, even in the tie, at most `2^53`, and at least `2^52`
unless the result is subnormal. -/
theorem roundAt_spec {n d : Nat} (hn : 0 < n) (hd : 0 < d) :
    |(roundAt (ulpExp n d) n d : ℚ) - (n : ℚ) / d / 2 ^ ulpExp n d| ≤ 1 / 2 ∧
    (|(roundAt (ulpExp n d) n d : ℚ) - (n : ℚ) / d / 2 ^ ulpExp n d| = 1 / 2 → roundAt (ulpExp n d) n d % 2 = 0) ∧
    roundAt (ulpExp n d) n d ≤ 2 ^ 53 ∧
    (ulpExp n d = floorLog2 n d - 52 → (2 : ℚ) ^ 52 ≤ (n : ℚ) / d / 2 ^ ulpExp n d ∧ 2 ^ 52 ≤ roundAt (ulpExp n d) n d) := by
  set e := ulpExp n d with he
  obtain ⟨f1, f2⟩ := floorLog2_spec hn hd
  have hs := roundQuot_spec (n * 2 ^ (-e).toNat) (d := d * 2 ^ e.toNat) (Nat.mul_pos hd (Nat.pow_pos two_pos))
  rw [scaled_eq] at hs
  have hp : (0 : ℚ) < 2 ^ e := by positivity
  have hlt : (n : ℚ) / d / 2 ^ e < 2 ^ 53 := by
    rw [div_lt_iff₀ hp]
    refine f2.trans_le ?_
    rw [← zpow_natCast, ← zpow_add₀ two_ne_zero]
    exact zpow_le_zpow_right₀ one_le_two (by have := le_max_left (floorLog2 n d - 52) (-1074); unfold ulpExp at he; push_cast; omega)
  refine ⟨hs.1, hs.2, ?_, ?_⟩
  · have h1 := (abs_le.1 hs.1).2
    have : (roundAt e n d : ℚ) < 2 ^ 53 + 1 := by unfold roundAt; linarith
    have : roundAt e n d < 2 ^ 53 + 1 := by exact_mod_cast this
    omega
  · intro hf
    have hge : (2 : ℚ) ^ 52 ≤ (n : ℚ) / d / 2 ^ e := by
      rw [le_div_iff₀ hp]
      refine le_trans (le_of_eq ?_) f1
      rw [← zpow_natCast, ← zpow_add₀ two_ne_zero, hf]
      congr 1
      push_cast
      ring
    refine ⟨hge, ?_⟩
    have h1 := (abs_le.1 hs.1).1
    have : (2 : ℚ) ^ 52 < (roundAt e n d : ℚ) + 1 := by unfold roundAt; linarith
    have : 2 ^ 52 < roundAt e n d + 1 := by exact_mod_cast this
    omega

/-- The unit exponent is that of the leading bit, or the smallest. -/
theorem ulpExp_cases (n d : Nat) : (ulpExp n d = floorLog2 n d - 52 ∨ ulpExp n d = -1074) ∧ -1074 ≤ ulpExp n d ∧
    floorLog2 n d - 52 ≤ ulpExp n d := by
  unfold ulpExp
  omega

/-- A real of magnitude at most `2^1023` rounds to a finite value: the pattern of its rounded significand. -/
theorem rneMag_lt {n d : Nat} (hn : 0 < n) (hd : 0 < d) (hx : (n : ℚ) / d ≤ 2 ^ 1023) :
    rneMag n d < 0x7FF0000000000000 := by
  obtain ⟨f1, f2⟩ := floorLog2_spec hn hd
  obtain ⟨s1, s2, s3, s4⟩ := roundAt_spec hn hd
  obtain ⟨u1, u2, u3⟩ := ulpExp_cases n d
  have hf : floorLog2 n d ≤ 1023 := by
    by_contra h
    have h1 : (2 : ℚ) ^ floorLog2 n d ≤ 2 ^ (1023 : Int) := f1.trans (by exact_mod_cast hx)
    exact h ((zpow_le_zpow_iff_right₀ (one_lt_two : (1 : ℚ) < 2)).1 h1)
  unfold rneMag
  rcases hf.lt_or_eq with h | h
  · have : ulpExp n d ≤ 970 := by omega
    omega
  · have hu : ulpExp n d = 971 := by omega
    have he : (n : ℚ) / d = 2 ^ 1023 := le_antisymm hx (by
      rw [h] at f1
      exact_mod_cast f1)
    rw [hu, he] at s1
    rw [hu]
    have : (2 : ℚ) ^ 1023 / 2 ^ (971 : Int) = 2 ^ 52 := by
      rw [← zpow_natCast, ← zpow_sub₀ two_ne_zero, ← zpow_natCast]
      norm_num
    rw [this] at s1
    have : (roundAt 971 n d : ℚ) < 2 ^ 52 + 1 := by linarith [(abs_le.1 s1).2]
    have : roundAt 971 n d < 2 ^ 52 + 1 := by exact_mod_cast this
    omega

/-- What `roundTo` gives, for a nonzero real that does not round past the finite values. -/
theorem realOf_roundTo (neg : Bool) {n d : Nat} (hn : 0 < n) (hd : 0 < d) (hm : rneMag n d < 0x7FF0000000000000) :
    realOf (roundTo neg n d) = signRat neg * (roundAt (ulpExp n d) n d * 2 ^ ulpExp n d) ∧
    expOf (roundTo neg n d) < 2047 ∧ fracOf (roundTo neg n d) % 2 = roundAt (ulpExp n d) n d % 2 ∧
    signOf (roundTo neg n d) = neg := by
  obtain ⟨u1, u2, u3⟩ := ulpExp_cases n d
  obtain ⟨s1, s2, s3, s4⟩ := roundAt_spec hn hd
  have e : roundTo neg n d = BitVec.ofBool neg ++ BitVec.ofNat 63 (rneMag n d) := by
    unfold roundTo
    rw [if_neg hn.ne', if_pos hm]
  have hm' : rneMag n d < 2 ^ 63 := by omega
  rw [e, signOf_mk, expOf_mk neg hm', fracOf_mk neg hm']
  refine ⟨?_, by omega, ?_, rfl⟩
  · unfold rneMag at hm' ⊢
    exact realOf_mk neg u2 s3 (by rcases u1 with h | h; exacts [.inl (s4 h).2, .inr h]) hm'
  · unfold rneMag
    omega

/-- Zero rounds to +0.0. -/
theorem roundTo_zero (neg : Bool) (d : Nat) : roundTo neg 0 d = 0#64 := rfl

/-- A positive rational is its numerator over its denominator, in magnitude. -/
theorem natAbs_div_den (x : ℚ) : ((x.num.natAbs : Nat) : ℚ) / x.den = |x| := by
  rw [Nat.cast_natAbs, Int.cast_abs]
  conv_rhs => rw [← Rat.num_div_den x]
  rw [abs_div, Nat.abs_cast]

end Sys2Proof.Laws
end

