-- ==== Sys2Proof/Laws/State.lean ====
section
/-!
SUPPORT. Sys2Proof/Laws/State.lean: one lemma for each field and each update, true by rfl, so that no proof unfolds a record
update; and the codes' small facts.
-/
namespace Sys2Proof.Machine

variable (g : Group) (r : GroupRegs) (s : State) (c : ErrCode) (w : Word)

@[simp] theorem regs_accel : regs .accel s = s.accel := rfl
@[simp] theorem regs_gyro : regs .gyro s = s.gyro := rfl

@[simp] theorem setRegs_accel_accel : (setRegs .accel r s).accel = r := rfl
@[simp] theorem setRegs_accel_gyro : (setRegs .accel r s).gyro = s.gyro := rfl
@[simp] theorem setRegs_gyro_accel : (setRegs .gyro r s).accel = s.accel := rfl
@[simp] theorem setRegs_gyro_gyro : (setRegs .gyro r s).gyro = r := rfl
@[simp] theorem setRegs_drv : (setRegs g r s).drv = s.drv := by cases g <;> rfl
@[simp] theorem setRegs_err : (setRegs g r s).err = s.err := by cases g <;> rfl
@[simp] theorem setRegs_params : (setRegs g r s).params = s.params := by cases g <;> rfl
@[simp] theorem setRegs_resp : (setRegs g r s).resp = s.resp := by cases g <;> rfl
@[simp] theorem setRegs_script : (setRegs g r s).script = s.script := by cases g <;> rfl
@[simp] theorem regs_setRegs : regs g (setRegs g r s) = r := by cases g <;> rfl

@[simp] theorem finish_drv : (finish c s).drv = s.drv := rfl
@[simp] theorem finish_accel : (finish c s).accel = s.accel := rfl
@[simp] theorem finish_gyro : (finish c s).gyro = s.gyro := rfl
@[simp] theorem finish_err : (finish c s).err = c := rfl
@[simp] theorem finish_params : (finish c s).params = s.params := rfl
@[simp] theorem finish_resp : (finish c s).resp = .code c := rfl
@[simp] theorem finish_script : (finish c s).script = s.script := rfl
@[simp] theorem regs_finish : regs g (finish c s) = regs g s := by cases g <;> rfl

@[simp] theorem storeRaw_fs (t : Triple 16) : (storeRaw t r).fs = r.fs := rfl
@[simp] theorem storeRaw_raw (t : Triple 16) : (storeRaw t r).raw = t := rfl
@[simp] theorem storeRaw_loaded (t : Triple 16) : (storeRaw t r).loaded = true := rfl
@[simp] theorem storeRaw_fresh (t : Triple 16) : (storeRaw t r).fresh = true := rfl
@[simp] theorem storeRaw_out (t : Triple 16) : (storeRaw t r).out = r.out := rfl
@[simp] theorem storeRaw_outv (t : Triple 16) : (storeRaw t r).outv = r.outv := rfl

@[simp] theorem clearFresh_fs : (clearFresh r).fs = r.fs := rfl
@[simp] theorem clearFresh_raw : (clearFresh r).raw = r.raw := rfl
@[simp] theorem clearFresh_loaded : (clearFresh r).loaded = r.loaded := rfl
@[simp] theorem clearFresh_fresh : (clearFresh r).fresh = false := rfl
@[simp] theorem clearFresh_out : (clearFresh r).out = r.out := rfl
@[simp] theorem clearFresh_outv : (clearFresh r).outv = r.outv := rfl

@[simp] theorem storeOut_fs (t : Triple 64) : (storeOut t r).fs = r.fs := rfl
@[simp] theorem storeOut_raw (t : Triple 64) : (storeOut t r).raw = r.raw := rfl
@[simp] theorem storeOut_loaded (t : Triple 64) : (storeOut t r).loaded = r.loaded := rfl
@[simp] theorem storeOut_fresh (t : Triple 64) : (storeOut t r).fresh = r.fresh := rfl
@[simp] theorem storeOut_out (t : Triple 64) : (storeOut t r).out = t := rfl
@[simp] theorem storeOut_outv (t : Triple 64) : (storeOut t r).outv = true := rfl

@[simp] theorem clearBothFresh_drv : (clearBothFresh s).drv = s.drv := rfl
@[simp] theorem clearBothFresh_accel : (clearBothFresh s).accel = clearFresh s.accel := rfl
@[simp] theorem clearBothFresh_gyro : (clearBothFresh s).gyro = clearFresh s.gyro := rfl
@[simp] theorem clearBothFresh_err : (clearBothFresh s).err = s.err := rfl
@[simp] theorem clearBothFresh_params : (clearBothFresh s).params = s.params := rfl
@[simp] theorem clearBothFresh_resp : (clearBothFresh s).resp = s.resp := rfl
@[simp] theorem clearBothFresh_script : (clearBothFresh s).script = s.script := rfl

@[simp] theorem writeOut_drv : (writeOut g s).drv = s.drv := setRegs_drv ..
@[simp] theorem writeOut_err : (writeOut g s).err = s.err := setRegs_err ..
@[simp] theorem writeOut_params : (writeOut g s).params = s.params := setRegs_params ..
@[simp] theorem writeOut_resp : (writeOut g s).resp = s.resp := setRegs_resp ..
@[simp] theorem writeOut_script : (writeOut g s).script = s.script := setRegs_script ..
@[simp] theorem writeOut_accel_accel : (writeOut .accel s).accel = storeOut (converted .accel s) s.accel := rfl
@[simp] theorem writeOut_accel_gyro : (writeOut .accel s).gyro = s.gyro := rfl
@[simp] theorem writeOut_gyro_accel : (writeOut .gyro s).accel = s.accel := rfl
@[simp] theorem writeOut_gyro_gyro : (writeOut .gyro s).gyro = storeOut (converted .gyro s) s.gyro := rfl

@[simp] theorem issueNext_script : (issueNext w s).script = .cmd w :: s.script := rfl
@[simp] theorem issueNext_drv : (issueNext w s).drv = s.drv := rfl
@[simp] theorem issueNext_accel : (issueNext w s).accel = s.accel := rfl
@[simp] theorem issueNext_gyro : (issueNext w s).gyro = s.gyro := rfl
@[simp] theorem issueNext_err : (issueNext w s).err = s.err := rfl
@[simp] theorem issueNext_params : (issueNext w s).params = s.params := rfl
@[simp] theorem issueNext_resp : (issueNext w s).resp = s.resp := rfl

/-- The sampling transition leaves `UNINIT` alone. -/
@[simp] theorem enterSampling_uninit : enterSampling .uninit = .uninit := rfl

/-- Past `UNINIT` a successful sampling command always ends in `SAMPLING`. -/
theorem enterSampling_of_ne {d : DriverState} (h : d ≠ .uninit) : enterSampling d = .sampling := by
  cases d <;> first | rfl | exact absurd rfl h

/-- A command past `UNINIT` sees one of the two other states, which allow the same commands. -/
theorem enterSampling_eq_uninit {d : DriverState} : enterSampling d = .uninit ↔ d = .uninit := by
  cases d <;> decide

end Sys2Proof.Machine
end

