-- ==== Sys2Proof/Laws/Ops.lean ====
section
/-!
SUPPORT. Sys2Proof/Laws/Ops.lean: for each shared operation, one lemma that says everything it can do, for callers to cite
instead of unfolding it.
-/
namespace Sys2Proof.Laws

open Sys2Proof.Machine

/-- Raising an error ends the command with that code. -/
theorem raise_eq (c : ErrCode) (s : State) : raise c s = .next (finish c s) := rfl

/-- What `configure` can do. -/
theorem configure_cases {afs gfs : BitVec 2} {s t : State} (h : configure afs gfs s = .next t) :
    (s.drv = .uninit ∧ t = finish .ok { s with
      drv := .configured, accel := { s.accel with fs := afs }, gyro := { s.gyro with fs := gfs } }) ∨
    (s.drv ≠ .uninit ∧ t = finish .configLocked s) := by
  unfold configure at h
  split at h
  · exact .inl ⟨‹_›, (Host.Outcome.next.inj h).symm⟩
  · exact .inr ⟨‹_›, (Host.Outcome.next.inj h).symm⟩

/-- What `loadGroup` can do. -/
theorem loadGroup_cases {g : Group} {bst : Byte} {v : Triple 16} {s t : State} (h : loadGroup g bst v s = .next t) :
    (busStatusOk bst = false ∧ t = finish .illegalCommand s) ∨
    (busStatusOk bst = true ∧ s.drv = .uninit ∧ t = finish .notInitialized s) ∨
    (s.drv ≠ .uninit ∧ bst = 0x01#8 ∧ t = finish .busAddr (setRegs g (clearFresh (regs g s)) s)) ∨
    (s.drv ≠ .uninit ∧ bst = 0x02#8 ∧ t = finish .busRead (setRegs g (clearFresh (regs g s)) s)) ∨
    (s.drv ≠ .uninit ∧ bst ≠ 0x01#8 ∧ bst ≠ 0x02#8 ∧ busStatusOk bst = true ∧
      t = finish .ok { setRegs g (storeRaw v (regs g s)) s with drv := .sampling }) := by
  unfold loadGroup at h
  split at h
  · exact .inl ⟨‹_›, (Host.Outcome.next.inj h).symm⟩
  have hb : busStatusOk bst = true := by simpa using ‹¬ busStatusOk bst = false›
  refine .inr ?_
  split at h
  · exact .inl ⟨hb, ‹_›, (Host.Outcome.next.inj h).symm⟩
  refine .inr ?_
  split at h
  · exact .inl ⟨‹_›, ‹_›, (Host.Outcome.next.inj h).symm⟩
  refine .inr ?_
  split at h
  · exact .inl ⟨‹_›, ‹_›, (Host.Outcome.next.inj h).symm⟩
  refine .inr ⟨‹_›, ‹_›, ‹_›, hb, ?_⟩
  have := (Host.Outcome.next.inj h).symm
  rwa [setRegs_drv, enterSampling_of_ne ‹_›] at this

/-- What `convertGroup` can do. -/
theorem convertGroup_cases {g : Group} {s t : State} (h : convertGroup g s = .next t) :
    (s.drv = .uninit ∧ t = finish .notInitialized s) ∨
    (s.drv ≠ .uninit ∧ (regs g s).loaded = false ∧ t = finish .noData s) ∨
    (s.drv ≠ .uninit ∧ (regs g s).loaded = true ∧ t = finish .ok { writeOut g s with drv := .sampling }) := by
  unfold convertGroup at h
  split at h
  · exact .inl ⟨‹_›, (Host.Outcome.next.inj h).symm⟩
  refine .inr ?_
  split at h
  · exact .inl ⟨‹_›, ‹_›, (Host.Outcome.next.inj h).symm⟩
  refine .inr ⟨‹_›, by simpa using ‹¬ (regs g s).loaded = false›, ?_⟩
  have := (Host.Outcome.next.inj h).symm
  rwa [writeOut_drv, enterSampling_of_ne ‹_›] at this

/-- What `sampleBoth` can do. -/
theorem sampleBoth_cases {s t : State} (h : sampleBoth s = .next t) :
    (s.drv = .uninit ∧ t = finish .notInitialized s) ∨
    (s.drv ≠ .uninit ∧ (s.accel.fresh = false ∨ s.gyro.fresh = false) ∧ t = finish .noData s) ∨
    (s.drv ≠ .uninit ∧ s.accel.fresh = true ∧ s.gyro.fresh = true ∧
      t = finish .ok { clearBothFresh (writeOut .gyro (writeOut .accel s)) with drv := .sampling }) := by
  unfold sampleBoth at h
  split at h
  · exact .inl ⟨‹_›, (Host.Outcome.next.inj h).symm⟩
  refine .inr ?_
  split at h
  · exact .inl ⟨‹_›, ‹_›, (Host.Outcome.next.inj h).symm⟩
  have hf : ¬ (s.accel.fresh = false ∨ s.gyro.fresh = false) := ‹_›
  refine .inr ⟨‹_›, by simpa using fun e => hf (.inl e), by simpa using fun e => hf (.inr e), ?_⟩
  have := (Host.Outcome.next.inj h).symm
  rwa [clearBothFresh_drv, writeOut_drv, writeOut_drv, enterSampling_of_ne ‹_›] at this

/-- Every meaning answers a next state whose response is its `ERR`, and leaves the build and the script alone. -/
theorem exec_completes (i : Instr) (s : State) :
    ∃ t, exec i s = .next t ∧ t.resp = .code t.err ∧ t.params = s.params ∧ t.script = s.script := by
  cases i
  all_goals
    simp only [exec, execCfg, execLda, execLdg, execCva, execCvg, execSmp, configure, loadGroup, convertGroup,
      sampleBoth, raise, complete]
    repeat' split
    all_goals refine ⟨_, rfl, ?_⟩; simp

/-- A command port answers every word: the next state, with the response its `ERR`. -/
theorem cmdIssue_completes (w : Word) (s : State) :
    ∃ t, cmdIssue w s = .next t ∧ t.resp = .code t.err ∧ t.params = s.params ∧ t.script = s.script := by
  unfold cmdIssue
  split
  · exact exec_completes _ s
  · exact ⟨_, rfl, rfl, rfl, rfl⟩

/-- The state after an issue is the one the port answers. -/
theorem issue_eq {w : Word} {s t : State} (h : cmdIssue w s = .next t) : issue w s = t := by
  unfold issue
  rw [h]

/-- What a step can do, by the host's next action. -/
theorem step_cases {s t : State} (h : nextAction s = .next t) :
    (s.script = [] ∧ t = s) ∨
    (∃ w rest, s.script = .cmd w :: rest ∧ cmdIssue w { s with script := rest } = .next t) ∨
    (∃ i rest, s.script = .read i :: rest ∧ t = { s with script := rest, resp := .data (regRead s i) }) ∨
    (∃ rest, (s.script = .reset :: rest ∨ ∃ w, s.script = .resetInFlight w :: rest) ∧
      t = { State.reset with params := s.params, script := rest }) := by
  unfold nextAction at h
  split at h
  · exact .inl ⟨‹_›, (Host.Outcome.next.inj h).symm⟩
  · rename_i e rest he
    cases e with
    | cmd w => exact .inr (.inl ⟨w, rest, he, h⟩)
    | read i => exact .inr (.inr (.inl ⟨i, rest, he, (Host.Outcome.next.inj h).symm⟩))
    | reset => exact .inr (.inr (.inr ⟨rest, .inl he, (Host.Outcome.next.inj h).symm⟩))
    | resetInFlight w => exact .inr (.inr (.inr ⟨rest, .inr ⟨w, he⟩, (Host.Outcome.next.inj h).symm⟩))
    | overlap w v => cases h

/-- CFG is one configuration. -/
theorem exec_cfg (afs gfs : BitVec 2) (s : State) : exec (.cfg afs gfs) s = configure afs gfs s := rfl

/-- LDA is a load of group A. -/
theorem exec_lda (bst d0 d1 d2 d3 d4 d5 : Byte) (s : State) :
    exec (.lda bst d0 d1 d2 d3 d4 d5) s = loadGroup .accel bst (decodeAxes d0 d1 d2 d3 d4 d5) s := rfl

/-- LDG is a load of group G. -/
theorem exec_ldg (bst d0 d1 d2 d3 d4 d5 : Byte) (s : State) :
    exec (.ldg bst d0 d1 d2 d3 d4 d5) s = loadGroup .gyro bst (decodeAxes d0 d1 d2 d3 d4 d5) s := rfl

/-- CVA is a conversion of group A. -/
theorem exec_cva (s : State) : exec .cva s = convertGroup .accel s := rfl

/-- CVG is a conversion of group G. -/
theorem exec_cvg (s : State) : exec .cvg s = convertGroup .gyro s := rfl

/-- SMP is one sample. -/
theorem exec_smp (s : State) : exec .smp s = sampleBoth s := rfl

/-- A run of `k + 1` steps is the first step, then a run of `k`. -/
theorem run_succ {s t : State} (k : Nat) (h : step s = .next t) :
    Host.Core.run core (k + 1) s = Host.Core.run core k t := by
  have h' : core.step s = .next t := h
  simp only [Host.Core.run, h']

/-- A run of `k + 1` steps that ends in a next state has a first step, and a run of `k` after it. -/
theorem run_succ_cases {s u : State} {k : Nat} (h : Host.Core.run core (k + 1) s = .next u) :
    ∃ t, step s = .next t ∧ Host.Core.run core k t = .next u := by
  simp only [Host.Core.run] at h
  split at h
  · exact ⟨_, ‹_›, h⟩
  · cases h
  · cases h

/-- A step takes its action off the host's script. -/
theorem step_script {s t : State} {e : HostEvent} {rest : List HostEvent} (hs : s.script = e :: rest)
    (h : step s = .next t) : t.script = rest := by
  rcases step_cases h with ⟨h0, -⟩ | ⟨w, r, hr, hc⟩ | ⟨i, r, hr, rfl⟩ | ⟨r, hr, rfl⟩
  · rw [hs] at h0; cases h0
  · obtain ⟨u, hu, -, -, hsc⟩ := cmdIssue_completes w { s with script := r }
    rw [hu] at hc; cases hc
    rw [hs] at hr; cases hr
    exact hsc
  · rw [hs] at hr; cases hr; rfl
  · rw [hs] at hr
    rcases hr with hr | ⟨w, hr⟩ <;> cases hr <;> rfl

/-- What every step of a part of the script keeps, the run of that part keeps. -/
theorem run_keeps {P : State → Prop} {Q : HostEvent → Prop}
    (hstep : ∀ s t e rest, P s → s.script = e :: rest → Q e → step s = .next t → P t)
    {part rest : List HostEvent} {s u : State} (hp : P s) (hs : s.script = part ++ rest) (hq : ∀ e ∈ part, Q e)
    (h : Host.Core.run core part.length s = .next u) : P u ∧ u.script = rest := by
  induction part generalizing s with
  | nil => cases h; exact ⟨hp, hs⟩
  | cons e part ih =>
    obtain ⟨t, ht, hu⟩ := run_succ_cases h
    exact ih (hstep s t e _ hp hs (hq e List.mem_cons_self) ht) (step_script hs ht)
      (fun e' he' => hq e' (List.mem_cons_of_mem _ he')) hu

end Sys2Proof.Laws
end

