-- ==== Sys2Proof/Laws/Invariant.lean ====
section
/-!
SUPPORT. Sys2Proof/Laws/Invariant.lean: how each flag update keeps a group in agreement with `STATE`.
-/
namespace Sys2Proof.Laws

open Sys2Proof.Machine

variable {d : DriverState} {r : GroupRegs}

/-- The bus status that is neither of the two errors and not reserved is 0 (R75). -/
theorem busStatus_zero {b : Byte} (h : busStatusOk b = true) (h1 : b ≠ 0x01#8) (h2 : b ≠ 0x02#8) : b = 0x00#8 := by
  revert b; decide

/-- A group that agrees with a state past `UNINIT` agrees with `SAMPLING`. -/
theorem groupOk_sampling (h : GroupOk d r) : GroupOk .sampling r where
  fresh_loaded := h.fresh_loaded
  loaded_sampling _ := rfl
  outv_loaded := h.outv_loaded
  raw_reset := h.raw_reset
  out_reset := h.out_reset
  fs_reset := by simp

/-- A successful load keeps its group in agreement with `SAMPLING`. -/
theorem groupOk_storeRaw (h : GroupOk d r) (t : Triple 16) : GroupOk .sampling (storeRaw t r) where
  fresh_loaded _ := rfl
  loaded_sampling _ := rfl
  outv_loaded _ := rfl
  raw_reset := by simp
  out_reset := h.out_reset
  fs_reset := by simp

/-- Clearing `FRESH` keeps a group in agreement. -/
theorem groupOk_clearFresh (h : GroupOk d r) : GroupOk d (clearFresh r) where
  fresh_loaded := by simp
  loaded_sampling := h.loaded_sampling
  outv_loaded := h.outv_loaded
  raw_reset := h.raw_reset
  out_reset := h.out_reset
  fs_reset := h.fs_reset

/-- A conversion of a loaded group keeps it in agreement. -/
theorem groupOk_storeOut (h : GroupOk d r) (hl : r.loaded = true) (t : Triple 64) : GroupOk d (storeOut t r) where
  fresh_loaded := h.fresh_loaded
  loaded_sampling := h.loaded_sampling
  outv_loaded _ := hl
  raw_reset := h.raw_reset
  out_reset := by simp
  fs_reset := h.fs_reset

/-- A group in `UNINIT` has all its flags 0 (R90). -/
theorem groupOk_uninit_flags (h : GroupOk .uninit r) : r.loaded = false ∧ r.fresh = false ∧ r.outv = false := by
  have hl : r.loaded = false := by
    cases hr : r.loaded
    · rfl
    · exact absurd (h.loaded_sampling hr) (by decide)
  refine ⟨hl, ?_, ?_⟩
  · cases hf : r.fresh
    · rfl
    · rw [h.fresh_loaded hf] at hl; cases hl
  · cases ho : r.outv
    · rfl
    · rw [h.outv_loaded ho] at hl; cases hl

/-- A configuration in `UNINIT` leaves a group in agreement with `CONFIGURED`. -/
theorem groupOk_configured (h : GroupOk .uninit r) (fs : BitVec 2) : GroupOk .configured { r with fs := fs } where
  fresh_loaded := h.fresh_loaded
  loaded_sampling hl := absurd (h.loaded_sampling hl) (by decide)
  outv_loaded := h.outv_loaded
  raw_reset := h.raw_reset
  out_reset := h.out_reset
  fs_reset := by simp

/-- A group's registers after reset agree with `UNINIT`. -/
theorem groupOk_reset : GroupOk .uninit GroupRegs.reset := by
  constructor <;> decide

/-- A group that is not fresh stays so over a step that cannot load it (R28). -/
theorem stale_step {g : Group} {s t : State} {e : HostEvent} {rest : List HostEvent} (hf : (regs g s).fresh = false)
    (hs : s.script = e :: rest) (he : loadsGroup g e = false) (h : step s = .next t) : (regs g t).fresh = false := by
  rcases step_cases h with ⟨h0, -⟩ | ⟨w, r, hr, hc⟩ | ⟨i, r, -, rfl⟩ | ⟨r, -, rfl⟩
  · rw [hs] at h0; cases h0
  · rw [hs] at hr; cases hr
    unfold cmdIssue at hc
    simp only [loadsGroup] at he
    split at hc
    · rename_i i hi
      simp only [hi] at he
      cases i with
      | cfg => rcases configure_cases hc with ⟨-, rfl⟩ | ⟨-, rfl⟩ <;> cases g <;> simpa using hf
      | lda =>
        rcases loadGroup_cases hc with ⟨-, rfl⟩ | ⟨-, -, rfl⟩ | ⟨-, -, rfl⟩ | ⟨-, -, rfl⟩ | ⟨-, h1, h2, h3, rfl⟩ <;>
          cases g <;> simp_all [setRegs, isGoodLoad]
        exact he (busStatus_zero h3 h1 h2)
      | ldg =>
        rcases loadGroup_cases hc with ⟨-, rfl⟩ | ⟨-, -, rfl⟩ | ⟨-, -, rfl⟩ | ⟨-, -, rfl⟩ | ⟨-, h1, h2, h3, rfl⟩ <;>
          cases g <;> simp_all [setRegs, isGoodLoad]
        exact he (busStatus_zero h3 h1 h2)
      | cva => rcases convertGroup_cases hc with ⟨-, rfl⟩ | ⟨-, -, rfl⟩ | ⟨-, -, rfl⟩ <;> cases g <;> simpa using hf
      | cvg => rcases convertGroup_cases hc with ⟨-, rfl⟩ | ⟨-, -, rfl⟩ | ⟨-, -, rfl⟩ <;> cases g <;> simpa using hf
      | smp =>
        rcases sampleBoth_cases hc with ⟨-, rfl⟩ | ⟨-, -, rfl⟩ | ⟨-, -, -, rfl⟩ <;> cases g <;> simp_all
    · cases hc; cases g <;> simpa using hf
  · cases g <;> simpa using hf
  · cases g <;> rfl

end Sys2Proof.Laws
end

