-- ==== Sys2Proof/Laws/PerInstr.lean ====
section
/-!
SUPPORT. Sys2Proof/Laws/PerInstr.lean: the family OpcodeByte: the low byte of a command's word is its opcode in the map of
spec 30_encoding R71, whatever the operands.
-/
namespace Sys2Proof.Laws.OpcodeByte

/-- Bits 7:0 of the word are the opcode (R70, R71). -/
def Statement (i : Instr) : Prop := opcodeOf (encode i) = opcode i

/-- The low byte of a concatenation that ends in a byte is that byte. -/
theorem low_byte (hi : BitVec 56) (op : Byte) : opcodeOf (hi ++ op : Word) = op := by
  unfold opcodeOf
  ext j hj
  simp only [BitVec.getElem_extractLsb', BitVec.getLsbD_append]
  simp [hj, BitVec.getLsbD_eq_getElem]

theorem cfg (afs gfs : BitVec 2) : Statement (.cfg afs gfs) := low_byte (0#52 ++ gfs ++ afs) _

theorem lda (bst d0 d1 d2 d3 d4 d5 : Byte) : Statement (.lda bst d0 d1 d2 d3 d4 d5) :=
  low_byte (d5 ++ d4 ++ d3 ++ d2 ++ d1 ++ d0 ++ bst) _

theorem ldg (bst d0 d1 d2 d3 d4 d5 : Byte) : Statement (.ldg bst d0 d1 d2 d3 d4 d5) :=
  low_byte (d5 ++ d4 ++ d3 ++ d2 ++ d1 ++ d0 ++ bst) _

theorem cva : Statement .cva := low_byte 0#56 _

theorem cvg : Statement .cvg := low_byte 0#56 _

theorem smp : Statement .smp := low_byte 0#56 _

end Sys2Proof.Laws.OpcodeByte
end

