-- ==== Sys2Proof/Tests/Slice0.lean ====
section
/-!
SUPPORT. Sys2Proof/Tests/Slice0.lean: tests whose expected values come from spec 95_test_vectors and the rules' own examples,
and for every obligation with hypotheses a witness that meets them.
-/
namespace Sys2Proof.Tests

open Sys2Proof.Machine

/-! ### Helpers -/

/-- The outcome is a next state of which `f` holds. -/
def after (o : Result) (f : State → Bool) : Bool :=
  match o with
  | .next t => f t
  | .fault _ => false
  | .refused _ => false

/-- The block just configured at the given FS codes, in this hardware's build. -/
def configured (afs gfs : BitVec 2) : State :=
  { State.reset with drv := .configured, accel := { GroupRegs.reset with fs := afs }, gyro := { GroupRegs.reset with fs := gfs } }

/-- A group loaded with a triple and not yet sampled. -/
def loadedRegs (fs : BitVec 2) (t : Triple 16) : GroupRegs := { GroupRegs.reset with fs := fs, raw := t, loaded := true, fresh := true }

/-- The triples of program P3. -/
def rawA : Triple 16 := ⟨0x2000#16, 0x0000#16, 0xE000#16⟩
def rawG : Triple 16 := ⟨0x0083#16, 0xFF7D#16, 0x8000#16⟩

/-- Program P3 after step 2: group A loaded. -/
def loadedA : State := { configured 3#2 0#2 with drv := .sampling, accel := loadedRegs 3#2 rawA }

/-- Program P3 after step 5: both groups loaded. -/
def both : State := { loadedA with gyro := loadedRegs 0#2 rawG }

/-- The host's script replaced. -/
def will (es : List HostEvent) (s : State) : State := { s with script := es }

/-! ### WellFormed -/

theorem test_wellFormed_lda : WellFormed (.lda 0x02#8 0#8 0#8 0#8 0#8 0#8 0#8) = true := by decide
theorem test_illFormed_lda : WellFormed (.lda 0x03#8 0#8 0#8 0#8 0#8 0#8 0#8) = false := by decide
theorem test_wellFormed_ldg : WellFormed (.ldg 0x02#8 0#8 0#8 0#8 0#8 0#8 0#8) = true := by decide
theorem test_illFormed_ldg : WellFormed (.ldg 0xFF#8 0#8 0#8 0#8 0#8 0#8 0#8) = false := by decide

/-! ### Decoding: words written out from R72 to R74 -/

/-- Format C, GFS = 1 at 11:10, AFS = 2 at 9:8, OP = 0x01. -/
theorem test_decode_cfg : decode (0b0000000000000000000000000000000000000000000000000000_01_10_00000001#64)
    = .command (.cfg 2#2 1#2) := by decide
/-- Format L, D5 to D0 = 6, 5, 4, 3, 2, 1, BST = 0, OP = 0x02. -/
theorem test_decode_lda : decode (0b00000110_00000101_00000100_00000011_00000010_00000001_00000000_00000010#64)
    = .command (.lda 0#8 1#8 2#8 3#8 4#8 5#8 6#8) := by decide
/-- Format L, BST = 1, OP = 0x03 (`g` = 1). -/
theorem test_decode_ldg : decode (0b10000110_00000101_00000100_00000011_00000010_10000001_00000001_00000011#64)
    = .command (.ldg 1#8 0x81#8 2#8 3#8 4#8 5#8 0x86#8) := by decide
/-- Format N. -/
theorem test_decode_cva : decode (0b0000000000000000000000000000000000000000000000000000000000000100#64) = .command .cva := by decide
theorem test_decode_cvg : decode (0b0000000000000000000000000000000000000000000000000000000000000101#64) = .command .cvg := by decide
theorem test_decode_smp : decode (0b0000000000000000000000000000000000000000000000000000000000000110#64) = .command .smp := by decide
/-- R78, V-S6, V-S16: reserved encodings are refused by name. -/
theorem test_decode_reserved : decode 0#64 = .illegal .reservedOpcode ∧ decode 0x07#64 = .illegal .reservedOpcode ∧
    decode 0xFF#64 = .illegal .reservedOpcode ∧ decode 0x1001#64 = .illegal .reservedBits ∧
    decode 0x1004#64 = .illegal .reservedBits ∧ decode 0x302#64 = .illegal .reservedBusStatus := by decide
/-- R82 in the other direction. -/
theorem test_encode : encode (.cfg 3#2 1#2) = 0x701#64 ∧
    encode (.lda 0#8 0x20#8 0#8 0#8 0#8 0xE0#8 0#8) = 0x00E0000000200002#64 ∧
    encode (.ldg 2#8 0#8 0#8 0#8 0#8 0#8 0#8) = 0x203#64 ∧ encode .smp = 6#64 := by decide
theorem test_decodeTableWord : decodeTableWord 64 0x00807DFF83000003 =
    some (.ldg 0#8 0x00#8 0x83#8 0xFF#8 0x7D#8 0x80#8 0x00#8) ∧ decodeTableWord 64 0x1005 = none := by decide

/-! ### Single steps: the programs of 95_test_vectors, section 3 -/

/-- P1 step 1. -/
theorem test_cfg : after (step (State.reset.withFetchWord 64 0x301))
    (fun t => t.resp == .code .ok && regRead t 0#8 == 0x1#64 && regRead t 1#8 == 0x3#64) = true := by decide
/-- V-S7. -/
theorem test_cfg_locked : after (step ((configured 1#2 2#2).withFetchWord 64 0xF01))
    (fun t => t.resp == .code .configLocked && regRead t 0#8 == 0x31#64 && regRead t 1#8 == 0x9#64) = true := by decide
/-- P3 step 2. -/
theorem test_lda : after (step ((configured 3#2 0#2).withFetchWord 64 0x00E0000000200002))
    (fun t => t.resp == .code .ok && regRead t 0#8 == 0x502#64 && regRead t 8#8 == 0x0000E00000002000#64) = true := by decide
/-- V-S3. -/
theorem test_lda_uninit : after (step (State.reset.withFetchWord 64 0x202))
    (fun t => t.resp == .code .notInitialized && regRead t 0#8 == 0x20#64) = true := by decide
/-- P3 step 5. -/
theorem test_ldg : after (step (loadedA.withFetchWord 64 0x00807DFF83000003))
    (fun t => t.resp == .code .ok && regRead t 0#8 == 0xF02#64 && regRead t 9#8 == 0x00008000FF7D0083#64) = true := by decide
/-- P3 step 3 from a fresh group G (V-S15). -/
theorem test_ldg_busRead : after (step (both.withFetchWord 64 0x203))
    (fun t => t.resp == .code .busRead && regRead t 0#8 == 0x752#64 && regRead t 9#8 == 0x00008000FF7D0083#64) = true := by decide
/-- P1 step 3. -/
theorem test_cva : after (step (loadedA.withFetchWord 64 0x4))
    (fun t => regRead t 0#8 == 0x1502#64 && regRead t 2#8 == 0x40439D013A92A305#64 && regRead t 3#8 == 0#64
      && regRead t 4#8 == 0xC0439D013A92A305#64) = true := by decide +kernel
/-- V-S10. -/
theorem test_cva_noData : after (step ((configured 1#2 2#2).withFetchWord 64 0x4))
    (fun t => t.resp == .code .noData && regRead t 0#8 == 0x61#64) = true := by decide
/-- R131's example. -/
theorem test_cvg : after (step (both.withFetchWord 64 0x5))
    (fun t => t.resp == .code .ok && regRead t 5#8 == 0x3F91DF46A2529D39#64 && regRead t 6#8 == 0xBF91DF46A2529D39#64
      && regRead t 7#8 == 0xC011767FA477CE62#64 && regRead t 2#8 == 0#64) = true := by decide +kernel
/-- P3's last remark: under `FUSED` OUT_G[2] differs in its last bit (V-G9). -/
theorem test_cvg_fused : after (exec .cvg { both with params := { defaultParams with convMode := .fused } })
    (fun t => t.gyro.out.z == 0xC011767FA477CE63#64 && t.gyro.out.x == 0x3F91DF46A2529D39#64) = true := by decide +kernel
/-- P3 step 6. -/
theorem test_smp : after (step (both.withFetchWord 64 0x6))
    (fun t => regRead t 0#8 == 0x3302#64 && regRead t 2#8 == 0x40439D013A92A305#64
      && regRead t 7#8 == 0xC011767FA477CE62#64) = true := by decide +kernel
/-- V-S12. -/
theorem test_smp_noData : after (step (loadedA.withFetchWord 64 0x6))
    (fun t => t.resp == .code .noData && regRead t 0#8 == 0x562#64) = true := by decide
/-- P2 step 3. -/
theorem test_illegal : after (step (State.reset.withFetchWord 64 0))
    (fun t => t.resp == .code .illegalCommand && regRead t 0#8 == 0x10#64) = true := by decide

/-! ### Values: 95_test_vectors V-A, V-G, P4 -/

/-- P4, OUT_A: counts 32767, -1 and -32768 at FS code 0. -/
theorem test_cvtA : cvtA defaultParams 0#2 32767 = 0x40339CDA00902DE0#64 ∧
    cvtA defaultParams 0#2 (-1) = 0xBF439D013A92A305#64 ∧
    cvtA { defaultParams with accelUnit := .g } 0#2 32767 = 0x3FFFFFC000000000#64 := by decide +kernel
/-- V-G12 and V-G24: both modes. -/
theorem test_cvtG : cvtG defaultParams 1#2 1 = 0x3F31767FA477CE62#64 ∧
    cvtG { defaultParams with convMode := .fused } 1#2 1 = 0x3F31767FA477CE63#64 ∧
    cvtG defaultParams 2#2 131 = 0x3FB1D84D2919833A#64 := by decide +kernel
/-- A tie goes to the even significand, down and up (R15): 2^53 + 1 and 2^53 + 3. -/
theorem test_ties : f64 (2 ^ 53 + 1) = 0x4340000000000000#64 ∧ f64 (2 ^ 53 + 3) = 0x4340000000000002#64 := by decide +kernel
/-- The hand-computed shift of -8192 by 11: -4.0. -/
theorem test_shift : shiftQuot (-8192) 11 = 0xC010000000000000#64 := by decide +kernel

/-! ### The assembler -/

theorem test_assemble_text : assembleLine [' ', 'C', 'V', 'A'] = none ∧ assembleLine ['c', 'v', 'a', ' ', ';', 'x'] = some [4#64] ∧
    assembleLine ['c', 'f', 'g', ' ', 'a', 'f', 's', '=', '3', ',', ' ', 'g', 'f', 's', '=', '0', 'x', '1'] = some [0x701#64] ∧
    assembleLine ['l', 'd', 'g', ' ', 'b', 's', 't', '=', '2'] = some [0x203#64] ∧
    assembleLine ['l', 'd', 'g', ' ', 'b', 's', 't', '=', '3'] = none := by decide +kernel
/-- P3 steps 2 and 5. -/
theorem test_assemble_i16 : assemble (.loadI16 .accel 8192 0 (-8192)) = some 0x00E0000000200002#64 ∧
    assemble (.loadI16 .gyro 131 (-131) (-32768)) = some 0x00807DFF83000003#64 := by decide

/-! ### Witnesses: one for each obligation with hypotheses -/

theorem witness_DecodeOfEncode : WellFormed (.cfg 3#2 3#2) = true ∧ WellFormed (.lda 0#8 0xFF#8 0#8 0#8 0#8 0#8 0#8) = true ∧
    WellFormed (.ldg 2#8 0#8 0#8 0#8 0#8 0#8 0xFF#8) = true ∧ WellFormed .cva = true ∧ WellFormed .cvg = true ∧
    WellFormed .smp = true := by decide
theorem witness_EncodeOfDecode : decode 0xF01#64 = .command (.cfg 3#2 3#2) := by decide
theorem witness_DecoderVerdict :
    (0xF01 % 256 = 1 ∧ 0xF01 / 2 ^ 12 = 0) ∧ (0x202 % 256 = 2 ∧ 0x202 / 2 ^ 8 % 256 ≤ 2) ∧
    (0x203 % 256 = 3 ∧ 0x203 / 2 ^ 8 % 256 ≤ 2) ∧ (4 % 256 = 4 ∧ 4 / 2 ^ 8 = 0) ∧ (5 % 256 = 5 ∧ 5 / 2 ^ 8 = 0) ∧
    (6 % 256 = 6 ∧ 6 / 2 ^ 8 = 0) ∧ (0x1001 % 256 = 1 ∧ 0x1001 / 2 ^ 12 ≠ 0) ∧
    (0x302 % 256 = 2 ∧ 2 < 0x302 / 2 ^ 8 % 256) ∧ (0x303 % 256 = 3 ∧ 2 < 0x303 / 2 ^ 8 % 256) ∧
    (0x104 % 256 = 4 ∧ 0x104 / 2 ^ 8 ≠ 0) ∧ (0x105 % 256 = 5 ∧ 0x105 / 2 ^ 8 ≠ 0) ∧ (0x106 % 256 = 6 ∧ 0x106 / 2 ^ 8 ≠ 0) ∧
    (0x100 % 256 = 0) ∧ (6 < 7 % 256) := by decide
theorem witness_ReservedWordWritesOnlyErr :
    (will [.cmd 0x1001#64] both).script = .cmd 0x1001#64 :: [] ∧ ∃ why, decode 0x1001#64 = .illegal why :=
  ⟨rfl, .reservedBits, by decide⟩
theorem witness_StepRunsDecodedCommand :
    (will [.cmd 6#64, .reset] both).script = .cmd 6#64 :: [.reset] ∧ decode 6#64 = .command .smp := ⟨rfl, by decide⟩
theorem witness_PlacedWordRuns : WellFormed (.lda 2#8 0#8 0#8 0#8 0#8 0#8 0#8) = true := by decide
theorem witness_ResponseIsNewErr : (will [.cmd 0#64] both).script = .cmd 0#64 :: [] ∧ ∃ t, step (will [.cmd 0#64] both) = .next t :=
  ⟨rfl, _, rfl⟩
theorem witness_RegReadHasNoSideEffect :
    (will [.read 1#8, .read 0#8, .read 255#8, .reset] both).script = [1#8, 0#8].map .read ++ .read 255#8 :: [.reset] := rfl
theorem witness_ReadsAreOrderedWithCommands :
    (will [.read 0#8, .cmd 6#64, .read 0#8] both).script = .read 0#8 :: .cmd 6#64 :: .read 0#8 :: [] ∧
    ∃ t, Host.Core.run core 2 (will [.read 0#8, .cmd 6#64, .read 0#8] both) = .next t := ⟨rfl, _, rfl⟩
theorem witness_ReadIndexMap : (2#8).toNat = 2 ∧ (3#8).toNat = 3 ∧ (4#8).toNat = 4 ∧ (5#8).toNat = 5 ∧ (6#8).toNat = 6 ∧
    (7#8).toNat = 7 ∧ (8#8).toNat = 8 ∧ (9#8).toNat = 9 ∧ 10 ≤ (10#8).toNat ∧ 10 ≤ (255#8).toNat := by decide
theorem witness_ResetValues : (State.reset = State.reset ∨ ∃ p script, State.reset = bootState p script) ∧
    ∃ p script, bootState { defaultParams with convMode := .fused } [.reset] = bootState p script := ⟨.inl rfl, _, _, rfl⟩
theorem witness_ResetAbandonsCommand :
    ((will [.reset] both).script = .reset :: [] ∧ isReset .reset = true) ∧
    ((will [.resetInFlight 6#64, .read 0#8] both).script = .resetInFlight 6#64 :: [.read 0#8] ∧
      isReset (.resetInFlight 6#64) = true) := ⟨⟨rfl, rfl⟩, rfl, rfl⟩
theorem witness_IdleBlockWaits : State.reset.script = [] := rfl
theorem witness_EveryActionCompletesButOverlap :
    (∀ w v rest, (will [.cmd 6#64] both).script ≠ .overlap w v :: rest) ∧
    (∃ w v rest, (will [.overlap 6#64 4#64] both).script = .overlap w v :: rest) :=
  ⟨fun w v rest h => (by cases h), 6#64, 4#64, [], rfl⟩
theorem inv_both : Inv both where
  accel := ⟨by decide, by decide, by decide, by decide, by decide, by decide⟩
  gyro := ⟨by decide, by decide, by decide, by decide, by decide, by decide⟩
  sampling_loaded := by decide
  resp_err := fun c h => by cases h
theorem inv_reset : Inv State.reset where
  accel := ⟨by decide, by decide, by decide, by decide, by decide, by decide⟩
  gyro := ⟨by decide, by decide, by decide, by decide, by decide, by decide⟩
  sampling_loaded := by decide
  resp_err := fun c h => by cases h
theorem witness_CfgMeaning : State.reset.drv = .uninit ∧ (configured 1#2 2#2).drv ≠ .uninit ∧ both.drv ≠ .uninit ∧
    ((0x1001#64).toNat % 256 = 1 ∧ (0x1001#64).toNat / 2 ^ 12 ≠ 0) ∧ Inv State.reset ∧
    (defaultParams.accelUnit = .mps2 ∧ defaultParams.convMode = .twoStep) :=
  ⟨rfl, by decide, by decide, by decide, inv_reset, rfl, rfl⟩
theorem witness_LdaMeaning : ((0#8).toNat = 0 ∧ (configured 3#2 0#2).drv ≠ .uninit) ∧ ((1#8).toNat = 1 ∧ both.drv ≠ .uninit) ∧
    ((2#8).toNat = 2 ∧ both.drv ≠ .uninit) ∧ ((2#8).toNat ≤ 2 ∧ State.reset.drv = .uninit) ∧ ((0x302#64).toNat % 256 = 2 ∧ 2 < (0x302#64).toNat / 2 ^ 8 % 256) ∧
    Inv State.reset ∧ (configured 3#2 0#2).drv = .configured :=
  ⟨by decide, by decide, by decide, by decide, by decide, inv_reset, rfl⟩
theorem witness_LdgMeaning : ((0#8).toNat = 0 ∧ (configured 3#2 0#2).drv ≠ .uninit) ∧ ((1#8).toNat = 1 ∧ both.drv ≠ .uninit) ∧
    ((2#8).toNat = 2 ∧ both.drv ≠ .uninit) ∧ ((2#8).toNat ≤ 2 ∧ State.reset.drv = .uninit) ∧ ((0xFF03#64).toNat % 256 = 3 ∧ 2 < (0xFF03#64).toNat / 2 ^ 8 % 256) ∧
    Inv State.reset ∧ loadedA.drv = .sampling :=
  ⟨by decide, by decide, by decide, by decide, by decide, inv_reset, rfl⟩
theorem witness_CvaMeaning : (both.drv ≠ .uninit ∧ both.accel.loaded = true) ∧
    ((configured 1#2 2#2).drv ≠ .uninit ∧ (configured 1#2 2#2).accel.loaded = false) ∧ State.reset.drv = .uninit ∧
    ((0x104#64).toNat % 256 = 4 ∧ (0x104#64).toNat / 2 ^ 8 ≠ 0) ∧ (Inv both ∧ both.accel.loaded = true) ∧
    (both.drv = .sampling ∧ legalParams both.params = true ∧ both.params.sensA.get 3#2 = 0x40A0000000000000#64 ∧ both.params.grav = 0x40239D013A92A305#64 ∧
      both.params.accelUnit = .mps2 ∧ both.accel.fs = 3#2 ∧ both.accel.loaded = true ∧
      both.accel.raw = ⟨0x2000#16, 0x0000#16, 0xE000#16⟩) :=
  ⟨by decide, by decide, rfl, by decide, ⟨inv_both, rfl⟩, rfl, by decide +kernel, rfl, rfl, rfl, rfl, rfl, rfl⟩
theorem witness_CvgMeaning : (both.drv ≠ .uninit ∧ both.gyro.loaded = true) ∧
    (loadedA.drv ≠ .uninit ∧ loadedA.gyro.loaded = false) ∧ State.reset.drv = .uninit ∧
    ((0x105#64).toNat % 256 = 5 ∧ (0x105#64).toNat / 2 ^ 8 ≠ 0) ∧ (Inv both ∧ both.gyro.loaded = true) ∧
    (both.drv = .sampling ∧ legalParams both.params = true ∧ both.params.sensG.get 0#2 = 0x4060600000000000#64 ∧ both.params.deg2rad = 0x3F91DF46A2529D39#64 ∧
      both.params.convMode = .twoStep ∧ both.gyro.fs = 0#2 ∧ both.gyro.loaded = true ∧
      both.gyro.raw = ⟨0x0083#16, 0xFF7D#16, 0x8000#16⟩) :=
  ⟨by decide, by decide, rfl, by decide, ⟨inv_both, rfl⟩, rfl, by decide +kernel, rfl, rfl, rfl, rfl, rfl, rfl⟩
theorem witness_SmpMeaning : (both.drv ≠ .uninit ∧ both.accel.fresh = true ∧ both.gyro.fresh = true) ∧
    (loadedA.drv ≠ .uninit ∧ (loadedA.accel.fresh = false ∨ loadedA.gyro.fresh = false)) ∧ State.reset.drv = .uninit ∧
    ((0x106#64).toNat % 256 = 6 ∧ (0x106#64).toNat / 2 ^ 8 ≠ 0) ∧
    (both.drv = .sampling ∧ legalParams both.params = true ∧ both.params.sensA.get 3#2 = 0x40A0000000000000#64 ∧ both.params.grav = 0x40239D013A92A305#64 ∧
      both.params.accelUnit = .mps2 ∧
      both.params.sensG.get 0#2 = 0x4060600000000000#64 ∧ both.params.deg2rad = 0x3F91DF46A2529D39#64 ∧
      both.params.convMode = .twoStep ∧ both.accel.fs = 3#2 ∧ both.gyro.fs = 0#2 ∧
      both.accel.fresh = true ∧ both.gyro.fresh = true ∧ both.accel.raw = ⟨0x2000#16, 0x0000#16, 0xE000#16⟩ ∧
      both.gyro.raw = ⟨0x0083#16, 0xFF7D#16, 0x8000#16⟩) :=
  ⟨by decide, by decide, rfl, by decide, rfl, by decide +kernel, rfl, rfl, rfl, rfl, rfl, rfl, rfl, rfl, rfl, rfl, rfl, rfl⟩
/-- Every command has a next state; the same states witness LastErrorIsNeverRead's and GroupsAreIsolated's commands. -/
theorem witness_WhoWritesWhat : (∃ t, exec (.cfg 1#2 2#2) State.reset = .next t) ∧
    (∃ t, exec (.lda 0#8 1#8 2#8 3#8 4#8 5#8 6#8) both = .next t) ∧ (∃ t, exec (.ldg 0#8 1#8 2#8 3#8 4#8 5#8 6#8) both = .next t) ∧
    (∃ t, exec .cva both = .next t) ∧ (∃ t, exec .cvg both = .next t) ∧ (∃ t, exec .smp both = .next t) :=
  ⟨⟨_, rfl⟩, ⟨_, rfl⟩, ⟨_, rfl⟩, ⟨_, rfl⟩, ⟨_, rfl⟩, ⟨_, rfl⟩⟩
theorem witness_FailedCommandWritesOnlyErr :
    (∃ t, exec .smp loadedA = .next t ∧ t.err ≠ .ok ∧ t.err ≠ .busAddr ∧ t.err ≠ .busRead) ∧
    (∃ t, exec (.lda 1#8 0#8 0#8 0#8 0#8 0#8 0#8) both = .next t ∧ t.err ≠ .ok ∧ t.err = .busAddr) ∧
    (∃ t, exec (.ldg 2#8 0#8 0#8 0#8 0#8 0#8 0#8) both = .next t ∧ t.err ≠ .ok ∧ t.err = .busRead) :=
  ⟨⟨_, rfl, by decide⟩, ⟨_, rfl, by decide⟩, ⟨_, rfl, by decide⟩⟩
/-- One state for each arm: R156's example words, and one of each other command. -/
theorem witness_ErrorPriority : ∀ w ∈ [0x702#64, 0x301#64, 0x202#64, 0x203#64, 4#64, 5#64, 6#64],
    (will [.cmd w] State.reset).script = .cmd w :: [] ∧ ∃ t, step (will [.cmd w] State.reset) = .next t := by
  intro w hw
  refine ⟨rfl, ?_⟩
  simp only [List.mem_cons, List.not_mem_nil, or_false] at hw
  rcases hw with rfl | rfl | rfl | rfl | rfl | rfl | rfl <;> exact ⟨_, rfl⟩
theorem witness_SamplingTransition :
    (∃ t, isSampling (.lda 0#8 1#8 2#8 3#8 4#8 5#8 6#8) = true ∧ exec (.lda 0#8 1#8 2#8 3#8 4#8 5#8 6#8) (configured 1#2 2#2) = .next t ∧
      t.err = .ok ∧ (configured 1#2 2#2).drv = .configured) ∧
    (∃ t, isSampling .cva = true ∧ exec .cva (configured 1#2 2#2) = .next t ∧
      ¬ (t.err = .ok ∧ (configured 1#2 2#2).drv = .configured)) :=
  ⟨⟨_, rfl, rfl, rfl, rfl⟩, ⟨_, rfl, rfl, by decide⟩⟩
/-- A step of each kind R22 names: staying, CFG, the first load, reset. -/
theorem witness_StateTransitions : (∃ t, step State.reset = .next t) ∧
    (∃ t, step (will [.cmd 0x301#64] State.reset) = .next t ∧ t.drv = .configured) ∧
    (∃ t, step (will [.cmd 0x2#64] (configured 1#2 2#2)) = .next t ∧ t.drv = .sampling) ∧
    (∃ t, step (will [.reset] both) = .next t ∧ t.drv = .uninit) :=
  ⟨⟨_, rfl⟩, ⟨_, rfl, rfl⟩, ⟨_, rfl, rfl⟩, ⟨_, rfl, rfl⟩⟩
/-- LOADED and FRESH set, and FRESH cleared by each of its two commands; OUTV set after a sample. -/
theorem witness_FlagsAreClearedOnlyAsRuled :
    (∃ t, (will [.cmd 6#64] both).script = .cmd 6#64 :: [] ∧ isReset (.cmd 6#64) = false ∧
      step (will [.cmd 6#64] both) = .next t ∧ (regs .accel both).loaded = true ∧ (regs .accel both).fresh = true ∧
      (regs .accel t).fresh = false ∧ (regs .accel t).outv = true) ∧
    (∃ t, (will [.cmd 0x103#64] both).script = .cmd 0x103#64 :: [] ∧ isReset (.cmd 0x103#64) = false ∧
      step (will [.cmd 0x103#64] both) = .next t ∧ (regs .gyro both).fresh = true ∧ (regs .gyro t).fresh = false) :=
  ⟨⟨_, rfl, rfl, rfl, rfl, rfl, rfl, rfl⟩, ⟨_, rfl, rfl, rfl, rfl, rfl⟩⟩
/-- Between the samples: a read, a conversion, a failed load of the group and a load of the other one; then a reset. -/
theorem witness_SecondSampleHasNoData :
    let between : List HostEvent := [.read 0#8, .cmd 5#64, .cmd 0x103#64, .cmd 0x2#64]
    (∃ t u, exec .smp (will (between ++ [.cmd 6#64]) both) = .next t ∧ t.err = .ok ∧ t.script = between ++ [.cmd 6#64] ∧
      (∀ e ∈ between, loadsGroup .gyro e = false) ∧ (∀ e ∈ between, isReset e = false) ∧
      Host.Core.run core between.length t = .next u ∧ u.drv ≠ .uninit) ∧
    (∃ t u, exec .smp (will [.reset] both) = .next t ∧ t.err = .ok ∧ t.script = [.reset] ++ [] ∧
      (∀ e ∈ [HostEvent.reset], loadsGroup .accel e = false) ∧ Host.Core.run core 1 t = .next u ∧ u.drv = .uninit) :=
  ⟨⟨_, _, rfl, rfl, rfl, by decide, by decide, rfl, by decide⟩, ⟨_, _, rfl, rfl, rfl, by decide, rfl, rfl⟩⟩
/-- Both groups and both bus errors; between them the other group's load and a conversion, then a reset. -/
theorem witness_NoSampleAfterFailedLoad :
    let between : List HostEvent := [.cmd 0x3#64, .cmd 4#64, .read 0#8]
    both.drv ≠ .uninit ∧
    (∃ t u, exec (loadInstr .accel 1#8 0#8 0#8 0#8 0#8 0#8 0#8) (will between both) = .next t ∧ t.script = between ++ [] ∧
      (∀ e ∈ between, loadsGroup .accel e = false) ∧ (∀ e ∈ between, isReset e = false) ∧
      Host.Core.run core between.length t = .next u ∧ u.drv ≠ .uninit) ∧
    (∃ t u, exec (loadInstr .gyro 2#8 0#8 0#8 0#8 0#8 0#8 0#8) (will [.reset] both) = .next t ∧ t.script = [.reset] ++ [] ∧
      (∀ e ∈ [HostEvent.reset], loadsGroup .gyro e = false) ∧ Host.Core.run core 1 t = .next u ∧ u.drv = .uninit) :=
  ⟨by decide, ⟨_, _, rfl, rfl, by decide, by decide, rfl, by decide⟩, ⟨_, _, rfl, rfl, by decide, rfl, rfl⟩⟩
theorem witness_FailedLoadIgnoresBytes : (1#8 : Byte) ≠ 0#8 ∧ (2#8 : Byte) ≠ 0#8 ∧ (0xFF#8 : Byte) ≠ 0#8 := by decide
theorem witness_GroupsAreIsolated : (∃ t, exec (.lda 1#8 0#8 0#8 0#8 0#8 0#8 0#8) both = .next t) ∧ (∃ t, exec .cva both = .next t) ∧
    (∃ t, exec (.ldg 0#8 0#8 0#8 0#8 0#8 0#8 0#8) both = .next t) ∧ (∃ t, exec .cvg both = .next t) :=
  ⟨⟨_, rfl⟩, ⟨_, rfl⟩, ⟨_, rfl⟩, ⟨_, rfl⟩⟩
/-- Two states that differ in an output file. -/
theorem witness_OutputsAreNeverRead :
    let s' : State := { both with accel := { both.accel with out := ⟨1#64, 2#64, 3#64⟩ } }
    both ≠ s' ∧ eraseOut both = eraseOut s' ∧ ∃ t, exec .smp both = .next t := ⟨by decide, rfl, _, rfl⟩
theorem witness_PairDecoder : (16 ≤ 16 ∧ 15 ≤ 15 ∧ 15 < 16) ∧ (16 ≤ 64 ∧ 15 ≤ 63 ∧ 63 < 64) := by decide
theorem witness_DecoderIsBijection : IsCount (-32768) ∧ IsCount 32767 ∧ IsCount 0 := by unfold IsCount; omega
/-- A third, and a tie between two patterns. -/
theorem witness_RoundsToNearestEven : (|(1 / 3 : ℚ)| ≤ 2 ^ 1023 ∧ Finite64 (0x3FD5555555555555#64)) ∧
    (|realOf (rne64 (1 + 1 / 2 ^ 53)) - (1 + 1 / 2 ^ 53)| = |realOf 0x3FF0000000000001#64 - (1 + 1 / 2 ^ 53)| ∧
      realOf 0x3FF0000000000001#64 ≠ realOf (rne64 (1 + 1 / 2 ^ 53))) := by
  refine ⟨⟨?_, by unfold Finite64; decide⟩, by decide +kernel⟩
  rw [abs_of_pos (by norm_num)]
  exact (by norm_num : (1 / 3 : ℚ) ≤ 1).trans (one_le_pow₀ one_le_two)
theorem witness_ArithmeticIsCorrectlyRounded : IsCount (-32768) ∧ realOf (0xC060600000000000#64) ≠ 0 :=
  ⟨by unfold IsCount; omega, by decide +kernel⟩
/-- A legal build of each unit and mode, at both ends of the counts. -/
theorem witness_AccelConversion : (∀ u : AccelUnit, ∀ m : ConvMode,
    legalParams { defaultParams with accelUnit := u, convMode := m } = true) ∧ IsCount (-32768) ∧ IsCount 32767 :=
  ⟨fun u m => by cases u <;> cases m <;> decide +kernel, by unfold IsCount; omega, by unfold IsCount; omega⟩
theorem witness_GyroConversion : legalParams defaultParams = true ∧ defaultParams.convMode = .twoStep ∧
    legalParams { defaultParams with convMode := .fused } = true ∧ IsCount (-32768) ∧ IsCount 32767 :=
  ⟨by decide +kernel, rfl, by decide +kernel, by unfold IsCount; omega, by unfold IsCount; omega⟩
theorem witness_FusedIsDiagonalMatrix : legalParams { defaultParams with convMode := .fused } = true ∧
    ∃ v : Fin 3 → ℚ, v = ![(rawA.x.toInt : ℚ), (rawA.y.toInt : ℚ), (rawA.z.toInt : ℚ)] := ⟨by decide +kernel, _, rfl⟩
theorem witness_NoExceptionalValues : legalParams defaultParams = true ∧ IsCount (-32768) :=
  ⟨by decide +kernel, by unfold IsCount; omega⟩
theorem witness_SignAndZero : legalParams defaultParams = true ∧ (IsCount 1 ∧ (0 : Int) < 1) ∧ (IsCount (-32768) ∧ (-32768 : Int) < 0) ∧
    (IsCount (-32767) ∧ (-32767 : Int) ≤ -32767 ∧ (-32767 : Int) ≠ 0) := by
  refine ⟨by decide +kernel, ?_, ?_, ?_⟩ <;> unfold IsCount <;> omega
theorem witness_ScaleCorrectness : legalParams defaultParams = true ∧ IsCount 2048 ∧ realOf (defaultParams.sensA.get 3#2) = (2048 : Int) ∧
    IsPowerOfTwo (defaultParams.sensA.get 3#2) 11 ∧ IsCount 131 ∧ realOf (defaultParams.sensG.get 0#2) = (131 : Int) ∧
    defaultParams.convMode = .twoStep :=
  ⟨by decide +kernel, by unfold IsCount; omega, by decide +kernel, by unfold IsPowerOfTwo; decide +kernel, by unfold IsCount; omega,
    by decide +kernel, rfl⟩
theorem witness_ShiftPathIsDivision : (0 ≤ 15 ∧ IsPowerOfTwo one64 0 ∧ IsCount 0) ∧
    (15 ≤ 15 ∧ IsPowerOfTwo 0x40E0000000000000#64 15 ∧ IsCount (-32768)) ∧ sensOk 0x4050600000000000#64 = true :=
  ⟨⟨by decide, by unfold IsPowerOfTwo; decide +kernel, by unfold IsCount; omega⟩,
    ⟨by decide, by unfold IsPowerOfTwo; decide +kernel, by unfold IsCount; omega⟩, by decide +kernel⟩
theorem witness_FusedAgreesOnPowersOfTwo : legalParams defaultParams = true ∧ IsCount (-32768) ∧
    IsPowerOfTwo (defaultParams.sensA.get 0#2) 14 ∧
    (legalParams { defaultParams with sensG := defaultParams.sensA } = true ∧ IsPowerOfTwo (defaultParams.sensA.get 3#2) 11) :=
  ⟨by decide +kernel, by unfold IsCount; omega, by unfold IsPowerOfTwo; decide +kernel, by decide +kernel,
    by unfold IsPowerOfTwo; decide +kernel⟩
theorem witness_StepKeepsInvariant : Inv (will [.cmd 6#64] both) ∧ ∃ t, step (will [.cmd 6#64] both) = .next t :=
  ⟨⟨inv_both.accel, inv_both.gyro, inv_both.sampling_loaded, inv_both.resp_err⟩, _, rfl⟩
/-- A state with both output files written, about to be loaded again. -/
theorem witness_StepKeepsWholeSamples :
    let s : State := will [.cmd 2#64] { both with
      accel := { both.accel with out := cvtTriple .accel defaultParams 3#2 rawA, outv := true }
      gyro := { both.gyro with out := cvtTriple .gyro defaultParams 0#2 rawG, outv := true } }
    Inv s ∧ OutputsAreConversions s ∧ (∃ g, (regs g s).outv = true) ∧ ∃ t, step s = .next t := by
  refine ⟨?_, ?_, ⟨.accel, rfl⟩, _, rfl⟩
  · constructor
    · exact ⟨fun _ => rfl, fun _ => rfl, fun _ => rfl, fun h => (by cases h), fun h => (by cases h), fun h => by cases h⟩
    · exact ⟨fun _ => rfl, fun _ => rfl, fun _ => rfl, fun h => (by cases h), fun h => (by cases h), fun h => by cases h⟩
    · exact fun _ => .inl rfl
    · exact fun c h => by cases h
  · intro g _
    cases g
    · exact ⟨rawA, rfl⟩
    · exact ⟨rawG, rfl⟩
/-- The reset state of this hardware's build, and a boot, a configuration, two loads and a sample. -/
theorem witness_OutputsAlwaysInRange : (OutputsInRange State.reset ∧ ∃ t, step State.reset = .next t) ∧
    legalParams defaultParams = true ∧
    ∃ t, Host.Core.run core 4 (bootState defaultParams [.cmd 0x301#64, .cmd 0x00E0000000200002#64, .cmd 0x00807DFF83000003#64,
      .cmd 6#64]) = .next t ∧ t.accel.outv = true :=
  ⟨⟨⟨by decide +kernel, fun g => by cases g <;> exact ⟨.inl rfl, .inl rfl, .inl rfl⟩⟩, _, rfl⟩, by decide +kernel, _, rfl, rfl⟩
theorem witness_RangesFixedUntilReset :
    let s := will [.cmd 0xF01#64, .read 1#8] both
    s.drv ≠ .uninit ∧ (∀ e ∈ s.script, isReset e = false) ∧ ∃ t, Host.Core.run core 2 s = .next t :=
  ⟨by decide, by decide, _, rfl⟩
theorem witness_SampleBeforeInit : State.reset.drv = .uninit := rfl
theorem witness_SampleReturnsBothGroups : (configured 3#2 0#2).drv ≠ .uninit ∧ both.drv ≠ .uninit := by decide
theorem witness_SampleStopsAtFirstError : both.drv ≠ .uninit ∧ (configured 3#2 0#2).drv ≠ .uninit ∧
    (ErrCode.busAddr = .busAddr ∨ ErrCode.busAddr = .busRead) ∧
    BusRead.addressWriteFailed = (if ErrCode.busAddr = .busAddr then .addressWriteFailed else .readFailed) ∧
    BusRead.readFailed = (if ErrCode.busRead = .busAddr then .addressWriteFailed else .readFailed) := by decide
/-- Each of the three writes fails first once. -/
theorem witness_InitRecovers : State.reset.drv = .uninit ∧
    ∀ w ∈ [(false, true, true), (true, false, true), (true, true, false)], (w.1 && w.2.1 && w.2.2) = false ∧
      ∃ t o, driverInit w.1 w.2.1 w.2.2 3#2 0#2 State.reset = (t, o) := by
  refine ⟨rfl, fun w hw => ⟨?_, _, _, rfl⟩⟩
  simp only [List.mem_cons, List.not_mem_nil, or_false] at hw
  rcases hw with rfl | rfl | rfl <;> rfl
theorem witness_AssemblerMakesCommands : assemble (.cfg 3 0) = some 0x301#64 ∧ (∀ v, AsmLine.cfg 3 0 ≠ .word v) ∧
    assemble (.cfg 4 0) = none ∧ assemble (.load .accel 0 0 0 0 0 256) = none ∧ assemble (.loadFailed .gyro 0) = none ∧
    assemble (.loadI16 .gyro 32768 0 0) = none ∧ assemble (.word (2 ^ 64)) = none ∧
    assemble (.load .gyro 0 1 2 3 4 255) = some 0xFF04030201000003#64 ∧ assemble (.loadFailed .accel 1) = some 0x102#64 ∧
    assemble (.loadI16 .accel 32767 (-1) (-32768)) = some 0x0080FFFFFF7F0002#64 ∧
    assemble (.word 0x1004) = some 0x1004#64 := by
  refine ⟨by decide, fun v h => (by cases h), ?_⟩
  decide
theorem witness_CountsRoundTrip : IsCount (-32768) ∧ IsCount 0 ∧ IsCount 32767 ∧ both.drv ≠ .uninit :=
  ⟨by unfold IsCount; omega, by unfold IsCount; omega, by unfold IsCount; omega, by decide⟩

end Sys2Proof.Tests
end

namespace Sys2Proof.Proofs

/-!
The scope statements (spec 00_scope R8, R15): what a pattern's real can be beside a rounded fraction, `roundTo` as `RNE64`
of the signed fraction, and the ranges of R8 as bounds on reals.
-/

open Sys2Proof.Machine Sys2Proof.Laws

/-! ### The sign as a factor -/

@[simp] theorem abs_signRat (neg : Bool) : |signRat neg| = 1 := by cases neg <;> simp [signRat]

@[simp] theorem signRat_mul_signRat_mul (neg : Bool) (x : ℚ) : signRat neg * (signRat neg * x) = x := by
  cases neg <;> simp [signRat]

theorem signRat_xor (s t : Bool) : signRat (s ^^ t) = signRat s * signRat t := by
  cases s <;> cases t <;> simp [signRat]

theorem signRat_inv (neg : Bool) : (signRat neg)⁻¹ = signRat neg := by cases neg <;> simp [signRat]

/-- A common sign does not change a distance. -/
theorem abs_signRat_mul_sub (neg : Bool) (x y : ℚ) : |signRat neg * x - signRat neg * y| = |x - y| := by
  rw [← mul_sub, abs_mul, abs_signRat, one_mul]

theorem signRat_lt_zero_mul_abs (x : ℚ) : signRat (decide (x < 0)) * |x| = x := by
  rcases lt_or_ge x 0 with h | h
  · simp [signRat, h, abs_of_neg h]
  · simp [signRat, h.not_gt, abs_of_nonneg h]

/-- The sign of a nonzero real is the sign it was made with. -/
theorem decide_signRat_mul_lt_zero (neg : Bool) {x : ℚ} (hx : 0 < x) : decide (signRat neg * x < 0) = neg := by
  cases neg <;> simp [signRat, hx, hx.le]

theorem realOf_eq_signRat_mul (b : F64) : realOf b = signRat (signOf b) * ((numOf b : ℚ) / denOf b) := by
  rw [num_div_den, realOf_eq]

/-! ### Patterns on the grid of a unit in the last place -/

theorem sigOf_lt (b : F64) : sigOf b < 2 ^ 53 := by
  have h : fracOf b < 2 ^ 52 := BitVec.isLt _
  unfold sigOf
  split <;> omega

/-- A pattern whose own unit is at least `2^e` denotes a multiple of `2^e`. -/
theorem realOf_multiple (b : F64) {e : Int} (he : e ≤ (max (expOf b) 1 : Nat) - 1075) :
    ∃ k : Int, realOf b = k * 2 ^ e := by
  obtain ⟨j, hj⟩ := Int.eq_ofNat_of_zero_le (sub_nonneg.2 he)
  refine ⟨(if signOf b then -1 else 1) * (sigOf b * 2 ^ j), ?_⟩
  rw [realOf_eq, show ((max (expOf b) 1 : Nat) - 1075 : Int) = j + e by omega, zpow_add₀ two_ne_zero, zpow_natCast, signRat]
  push_cast
  ring

/-- A pattern whose own unit is below `2^e` denotes a real below `2^(e+52)`. -/
theorem abs_realOf_lt (b : F64) {e : Int} (he : ((max (expOf b) 1 : Nat) - 1075 : Int) < e) :
    |realOf b| < 2 ^ (e + 52) := by
  rw [abs_realOf, num_div_den]
  calc (sigOf b : ℚ) * 2 ^ ((max (expOf b) 1 : Nat) - 1075 : Int)
      < 2 ^ (53 : Int) * 2 ^ ((max (expOf b) 1 : Nat) - 1075 : Int) := by
        gcongr
        exact_mod_cast sigOf_lt b
    _ = 2 ^ (53 + ((max (expOf b) 1 : Nat) - 1075) : Int) := (zpow_add₀ two_ne_zero _ _).symm
    _ ≤ 2 ^ (e + 52) := zpow_le_zpow_right₀ one_le_two (by omega)

/-- Beside `x` with unit `2^e`, the real `z` is a multiple of the unit, or below the binade of `x`. -/
def OnGridOrBelow (e : Int) (x z : ℚ) : Prop := (∃ k : Int, z = k * 2 ^ e) ∨ |z| < 2 ^ (e + 52) ∧ 2 ^ (e + 52) ≤ x

/-- Every pattern, with its sign or the other, is on the grid of `n/d` or below its binade. -/
theorem realOf_onGridOrBelow (neg : Bool) (b : F64) {n d : Nat} (hn : 0 < n) (hd : 0 < d) :
    OnGridOrBelow (ulpExp n d) ((n : ℚ) / d) (signRat neg * realOf b) := by
  obtain ⟨hcases, -, -⟩ := ulpExp_cases n d
  rcases le_or_gt (ulpExp n d) ((max (expOf b) 1 : Nat) - 1075 : Int) with h | h
  · obtain ⟨k, hk⟩ := realOf_multiple b h
    refine .inl ⟨(if neg then -1 else 1) * k, ?_⟩
    rw [hk, signRat]
    push_cast
    ring
  · have hf : ulpExp n d + 52 = floorLog2 n d := by omega
    refine .inr ⟨by rw [abs_mul, abs_signRat, one_mul]; exact abs_realOf_lt b h, ?_⟩
    rw [hf]
    exact (floorLog2_spec hn hd).1

/-! ### Rounding to the nearest -/

/-- The real of the rounded significand: what `roundTo` denotes, but for the sign (`realOf_roundTo`). -/
def roundedMag (n d : Nat) : ℚ := roundAt (ulpExp n d) n d * 2 ^ ulpExp n d

/-- An integer other than one within a half of `t` is at least a half away. -/
theorem half_le_abs_sub {m k : Int} {t : ℚ} (hm : |(m : ℚ) - t| ≤ 1 / 2) (hk : k ≠ m) : 1 / 2 ≤ |(k : ℚ) - t| := by
  have h1 : (1 : ℚ) ≤ |(k : ℚ) - m| := by exact_mod_cast Int.one_le_abs (sub_ne_zero.2 hk)
  have h2 := abs_sub_le (k : ℚ) t m
  rw [abs_sub_comm t] at h2
  linarith

/-- A distance on the grid is the distance of the scaled reals, times the unit. -/
theorem abs_mul_zpow_sub (m x : ℚ) (e : Int) : |m * 2 ^ e - x| = |m - x / 2 ^ e| * 2 ^ e := by
  have hp : (0 : ℚ) < 2 ^ e := by positivity
  rw [← abs_of_pos hp, ← abs_mul, abs_of_pos hp, sub_mul, div_mul_cancel₀ _ hp.ne']

/-- A multiple of the unit is no nearer to `n/d` than the rounded significand, and another equally near only in a tie. -/
theorem roundedMag_nearest_multiple {n d : Nat} (hn : 0 < n) (hd : 0 < d) (k : Int) :
    |roundedMag n d - (n : ℚ) / d| ≤ |k * 2 ^ ulpExp n d - (n : ℚ) / d| ∧
    (|roundedMag n d - (n : ℚ) / d| = |k * 2 ^ ulpExp n d - (n : ℚ) / d| → k * 2 ^ ulpExp n d ≠ roundedMag n d →
      roundAt (ulpExp n d) n d % 2 = 0) := by
  obtain ⟨hhalf, htie, -, -⟩ := roundAt_spec hn hd
  unfold roundedMag
  rcases eq_or_ne k (roundAt (ulpExp n d) n d) with rfl | hk
  · simp
  · have hfar := half_le_abs_sub (by exact_mod_cast hhalf) hk
    have hp : (0 : ℚ) < 2 ^ ulpExp n d := by positivity
    simp only [abs_mul_zpow_sub]
    refine ⟨mul_le_mul_of_nonneg_right (hhalf.trans hfar) hp.le, fun h _ => htie (le_antisymm hhalf ?_)⟩
    exact (mul_right_cancel₀ hp.ne' h).symm ▸ hfar

/-- A real below the binade of `x` is farther from `x` than the least real of the binade. -/
theorem abs_sub_lt_of_below {z y x : ℚ} (hz : |z| < y) (hy : y ≤ x) : |y - x| < |z - x| := by
  rw [abs_sub_comm y, abs_sub_comm z, abs_of_nonneg (sub_nonneg.2 hy)]
  exact lt_of_lt_of_le (by linarith [le_abs_self z]) (le_abs_self _)

/-- The rounded significand is nearest among the reals on the grid or below the binade, and even in a tie. -/
theorem roundedMag_nearest {n d : Nat} (hn : 0 < n) (hd : 0 < d) {z : ℚ} (hz : OnGridOrBelow (ulpExp n d) ((n : ℚ) / d) z) :
    |roundedMag n d - (n : ℚ) / d| ≤ |z - (n : ℚ) / d| ∧
    (|roundedMag n d - (n : ℚ) / d| = |z - (n : ℚ) / d| → z ≠ roundedMag n d → roundAt (ulpExp n d) n d % 2 = 0) := by
  rcases hz with ⟨k, rfl⟩ | ⟨hbelow, hbinade⟩
  · exact roundedMag_nearest_multiple hn hd k
  · have hleast : (2 : ℚ) ^ (ulpExp n d + 52) = (2 ^ 52 : Int) * 2 ^ ulpExp n d := by
      rw [zpow_add₀ two_ne_zero, mul_comm]
      norm_num
    have hlt : |roundedMag n d - (n : ℚ) / d| < |z - (n : ℚ) / d| :=
      (hleast ▸ (roundedMag_nearest_multiple hn hd (2 ^ 52)).1).trans_lt (abs_sub_lt_of_below hbelow hbinade)
    exact ⟨hlt.le, fun h => absurd h hlt.ne⟩

/-- No pattern is nearer to the signed fraction than `roundTo`'s, which is even where another is equally near. -/
theorem roundTo_nearest (neg : Bool) {n d : Nat} (hn : 0 < n) (hd : 0 < d) (hm : rneMag n d < 0x7FF0000000000000)
    (b : F64) {x : ℚ} (hx : signRat neg * ((n : ℚ) / d) = x) :
    |realOf (roundTo neg n d) - x| ≤ |realOf b - x| ∧
    (|realOf (roundTo neg n d) - x| = |realOf b - x| → realOf b ≠ realOf (roundTo neg n d) →
      fracOf (roundTo neg n d) % 2 = 0) := by
  obtain ⟨hreal, -, hfrac, -⟩ := realOf_roundTo neg hn hd hm
  obtain ⟨hle, htie⟩ := roundedMag_nearest hn hd (realOf_onGridOrBelow neg b hn hd)
  have hb : |realOf b - x| = |signRat neg * realOf b - (n : ℚ) / d| := by
    rw [← abs_signRat_mul_sub neg, ← hx, signRat_mul_signRat_mul]
  have hr : |realOf (roundTo neg n d) - x| = |roundedMag n d - (n : ℚ) / d| := by
    rw [hreal, ← hx, abs_signRat_mul_sub, roundedMag]
  rw [hb, hr, hfrac]
  refine ⟨hle, fun h hne => htie h fun heq => hne ?_⟩
  rw [hreal, ← roundedMag, ← heq, signRat_mul_signRat_mul]

/-- Settles O38: `roundTo_nearest` off zero; zero rounds to itself. -/
theorem roundsToNearestEven : Obligations.RoundsToNearestEven := by
  intro x b hx _
  rcases eq_or_ne x 0 with rfl | hx0
  · have hzero : rne64 0 = 0#64 ∧ realOf 0#64 = 0 ∧ expOf 0#64 = 0 ∧ fracOf 0#64 = 0 := by decide +kernel
    simp [hzero, Finite64]
  · have hn : 0 < x.num.natAbs := Int.natAbs_pos.2 (Rat.num_ne_zero.2 hx0)
    have hm := rneMag_lt hn x.den_pos (natAbs_div_den x ▸ hx)
    exact ⟨(realOf_roundTo _ hn x.den_pos hm).2.1,
      roundTo_nearest _ hn x.den_pos hm b (natAbs_div_den x ▸ signRat_lt_zero_mul_abs x)⟩

/-! ### The operations as `RNE64` of exact reals -/

/-- `roundTo` is `RNE64` of the signed fraction it is given. -/
theorem roundTo_eq_rne64 (neg : Bool) (n : Nat) {d : Nat} (hd : 0 < d) :
    roundTo neg n d = rne64 (signRat neg * ((n : ℚ) / d)) := by
  rcases Nat.eq_zero_or_pos n with rfl | hn
  · simp [rne64, roundTo_zero]
  · have hd' : (0 : ℚ) < d := by exact_mod_cast hd
    have hq : (0 : ℚ) < n / d := by positivity
    set x := signRat neg * ((n : ℚ) / d) with hx
    have hfrac : ((x.num.natAbs : Nat) : ℚ) / x.den = n / d := by
      rw [natAbs_div_den, hx, abs_mul, abs_signRat, one_mul, abs_of_pos hq]
    rw [rne64, hx, decide_signRat_mul_lt_zero neg hq, ← hx]
    refine roundTo_congr neg hd x.den_pos ?_
    rw [div_eq_div_iff (by exact_mod_cast x.den_pos.ne') hd'.ne'] at hfrac
    exact_mod_cast hfrac.symm

/-- `/R` is `RNE64` of the exact quotient. -/
theorem divR_eq_rne64 (a : F64) {b : F64} (hb : realOf b ≠ 0) : divR a b = rne64 (realOf a / realOf b) := by
  have hnum : numOf b ≠ 0 := fun h => hb (by rw [realOf_eq_signRat_mul, h]; simp)
  rw [divR, roundTo_eq_rne64 _ _ (Nat.mul_pos (denOf_pos a) (Nat.pos_of_ne_zero hnum)), signRat_xor, realOf_eq_signRat_mul a,
    realOf_eq_signRat_mul b, mul_div_mul_comm, div_div_div_eq, div_eq_mul_inv (signRat _), signRat_inv]
  push_cast
  rfl

/-- `*R` is `RNE64` of the exact product. -/
theorem mulR_eq_rne64 (a b : F64) : mulR a b = rne64 (realOf a * realOf b) := by
  rw [mulR, roundTo_eq_rne64 _ _ (Nat.mul_pos (denOf_pos a) (denOf_pos b)), signRat_xor, realOf_eq_signRat_mul a,
    realOf_eq_signRat_mul b, mul_mul_mul_comm, div_mul_div_comm]
  push_cast
  rfl

/-- With a unit of at most 1, an integer is a multiple of the unit and its rounded significand is exact. -/
theorem roundedMag_nat {n : Nat} (he : ulpExp n 1 ≤ 0) : roundedMag n 1 = n := by
  have hexact : roundQuot (n * 2 ^ (-ulpExp n 1).toNat) 1 = n * 2 ^ (-ulpExp n 1).toNat := by
    simpa using roundQuot_exact (n * 2 ^ (-ulpExp n 1).toNat) one_pos
  rw [roundedMag, roundAt, two_zpow_eq, Int.toNat_of_nonpos he, pow_zero, Nat.one_mul, hexact]
  push_cast
  field_simp

/-- `f64` is exact below `2^53`. -/
theorem realOf_f64 {r : Int} (hr : r.natAbs < 2 ^ 53) : realOf (f64 r) = r := by
  rcases eq_or_ne r 0 with rfl | h0
  · decide +kernel
  · have hn : 0 < r.natAbs := Int.natAbs_pos.2 h0
    have hlt : (r.natAbs : ℚ) / (1 : Nat) < 2 ^ (53 : Int) := by
      rw [Nat.cast_one, div_one]
      exact_mod_cast hr
    have hbit := (floorLog2_spec hn one_pos).1.trans_lt hlt
    have hexp : floorLog2 r.natAbs 1 < 53 := (zpow_lt_zpow_iff_right₀ one_lt_two).1 hbit
    have hulp : ulpExp r.natAbs 1 ≤ 0 := by
      obtain ⟨h | h, -, -⟩ := ulpExp_cases r.natAbs 1 <;> omega
    have hm := rneMag_lt hn one_pos (hlt.le.trans (by exact_mod_cast pow_le_pow_right₀ one_le_two (by decide)))
    rw [f64, (realOf_roundTo _ hn one_pos hm).1, ← roundedMag, roundedMag_nat hulp]
    have := signRat_lt_zero_mul_abs (r : ℚ)
    simpa [Nat.cast_natAbs] using this

/-- Settles O39, an operation at a time. -/
theorem arithmeticIsCorrectlyRounded : Obligations.ArithmeticIsCorrectlyRounded :=
  ⟨fun n hn => realOf_f64 (by obtain ⟨hlo, hhi⟩ := hn; omega), fun a _ hb => divR_eq_rne64 a hb, mulR_eq_rne64⟩

/-! ### The constraints of a build -/

/-- A range of positive reals, tested on the exact fraction of a pattern. -/
theorem realOf_mem_range_iff (b : F64) {l u : ℚ} (hl : 0 < l) : l ≤ realOf b ∧ realOf b ≤ u ↔
    signOf b = false ∧ l * denOf b ≤ numOf b ∧ numOf b ≤ u * denOf b := by
  have hd : (0 : ℚ) < denOf b := by exact_mod_cast denOf_pos b
  have hfrac : (0 : ℚ) ≤ numOf b / denOf b := div_nonneg (Nat.cast_nonneg _) hd.le
  rw [realOf_eq_signRat_mul, ← le_div_iff₀ hd, ← div_le_iff₀ hd]
  cases signOf b
  · simp only [signRat, Bool.false_eq_true, if_false, one_mul, true_and]
  · simp only [signRat, if_true, Bool.true_eq_false, false_and, iff_false]
    intro h
    linarith [h.1]

theorem sensOk_iff (b : F64) : sensOk b = true ↔ 1 ≤ realOf b ∧ realOf b ≤ 32768 := by
  rw [realOf_mem_range_iff b one_pos]
  simp only [sensOk, Bool.and_eq_true, Bool.not_eq_true', decide_eq_true_eq, one_mul, and_assoc]
  norm_cast

theorem multiplierOk_iff (b : F64) : multiplierOk b = true ↔ 1 / 2 ^ 16 ≤ realOf b ∧ realOf b ≤ 2 ^ 16 := by
  rw [realOf_mem_range_iff b (by positivity), div_mul_eq_mul_div, div_le_iff₀' (by positivity), one_mul]
  simp only [multiplierOk, Bool.and_eq_true, Bool.not_eq_true', decide_eq_true_eq, and_assoc]
  norm_cast

/-- The four FS codes reach the four entries of a table. -/
theorem forall_get_iff (t : SensTable) (P : F64 → Prop) :
    (∀ fs, P (t.get fs)) ↔ P t.fs0 ∧ P t.fs1 ∧ P t.fs2 ∧ P t.fs3 := by
  refine ⟨fun h => ⟨h 0#2, h 1#2, h 2#2, h 3#2⟩, fun ⟨h0, h1, h2, h3⟩ fs => ?_⟩
  unfold SensTable.get
  split_ifs <;> assumption

theorem tableOk_iff (t : SensTable) : tableOk t = true ↔ ∀ fs, sensOk (t.get fs) = true := by
  rw [forall_get_iff t (sensOk · = true)]
  simp only [tableOk, Bool.and_eq_true, and_assoc]

/-- Settles O40: each test of a pattern is its range in reals. -/
theorem legalBuildRanges : Obligations.LegalBuildRanges := by
  intro p
  simp only [legalParams, Bool.and_eq_true, tableOk_iff, sensOk_iff, multiplierOk_iff, and_assoc, forall_and]

/-! ### The build of this hardware -/

theorem realOf_default_deg2rad : realOf defaultParams.deg2rad = 5030569068109113 / 2 ^ 58 := by decide +kernel

/-- The pattern of `DEG2RAD` is within half a unit in the last place of π/180. -/
theorem abs_default_deg2rad_sub_lt : |((realOf defaultParams.deg2rad : ℚ) : ℝ) - Real.pi / 180| < 1 / 2 ^ 59 := by
  have hlo := Real.pi_gt_d20
  have hhi := Real.pi_lt_d20
  rw [realOf_default_deg2rad, abs_lt]
  push_cast
  constructor <;> linarith

/-- The sensitivities and `GRAV` are the named reals or their nearest binary64 values (R8). -/
theorem default_reals :
    (realOf (defaultParams.sensA.get 0#2) = 16384 ∧ realOf (defaultParams.sensA.get 1#2) = 8192 ∧
      realOf (defaultParams.sensA.get 2#2) = 4096 ∧ realOf (defaultParams.sensA.get 3#2) = 2048) ∧
    (realOf (defaultParams.sensG.get 0#2) = 131 ∧ realOf (defaultParams.sensG.get 1#2) = 655 / 10 ∧
      defaultParams.sensG.get 2#2 = rne64 (328 / 10) ∧ defaultParams.sensG.get 3#2 = rne64 (164 / 10)) ∧
    defaultParams.grav = rne64 (980665 / 100000) := by decide +kernel

/-- The three rows of R123's table, at the four FS codes. -/
theorem default_fused :
    [0#2, 1#2, 2#2, 3#2].map (fusedKA defaultParams) =
      [0x3F439D013A92A305#64, 0x3F539D013A92A305#64, 0x3F639D013A92A305#64, 0x3F739D013A92A305#64] ∧
    [0#2, 1#2, 2#2, 3#2].map (fusedKA1 defaultParams) =
      [0x3F10000000000000#64, 0x3F20000000000000#64, 0x3F30000000000000#64, 0x3F40000000000000#64] ∧
    [0#2, 1#2, 2#2, 3#2].map (fusedKG defaultParams) =
      [0x3F21767FA477CE63#64, 0x3F31767FA477CE63#64, 0x3F416FAF0EC0FD4B#64, 0x3F516FAF0EC0FD4B#64] := by decide +kernel

/-- Settles O41: the values are read off, and `DEG2RAD` is bounded by twenty decimals of π. -/
theorem defaultBuild : Obligations.DefaultBuild := by
  have hlegal : legalParams defaultParams = true := by decide +kernel
  obtain ⟨⟨a0, a1, a2, a3⟩, ⟨g0, g1, g2, g3⟩, hgrav⟩ := default_reals
  have hfused := default_fused
  simp only [List.map_cons, List.map_nil, List.cons.injEq, and_true, and_assoc] at hfused
  exact ⟨hlegal, rfl, rfl, a0, a1, a2, a3, g0, g1, g2, g3, hgrav, abs_default_deg2rad_sub_lt, hfused⟩

end Sys2Proof.Proofs

namespace Sys2Proof.Proofs

/-!
The state statements (spec 10_state R22 to R40): one inversion lemma for what a command can do to the state, the statements
about a step and a run derived from it, two commutation lemmas for `exec`, and the read index map.
-/

open Sys2Proof.Machine Sys2Proof.Laws

/-! ### One group among the two -/

/-- The registers of a group after one group is written. -/
theorem regs_setRegs_ite (g g' : Group) (r : GroupRegs) (s : State) :
    regs g' (setRegs g r s) = if g' = g then r else regs g' s := by
  cases g <;> cases g' <;> rfl

/-- What a write to one group keeps of that group, it keeps of both. -/
theorem regs_setRegs_field {α : Type} (f : GroupRegs → α) {g : Group} {r : GroupRegs} {s : State}
    (hr : f r = f (regs g s)) (g' : Group) : f (regs g' (setRegs g r s)) = f (regs g' s) := by
  rw [regs_setRegs_ite]
  split
  · subst g'; exact hr
  · rfl

@[simp] theorem regs_withScript (g : Group) (s : State) (rest : List HostEvent) :
    regs g { s with script := rest } = regs g s := by
  cases g <;> rfl

/-- `s` in `SAMPLING`, as a successful sampling command leaves it (R40). -/
def inSampling (s : State) : State := { s with drv := .sampling }

@[simp] theorem inSampling_drv (s : State) : (inSampling s).drv = .sampling := rfl

@[simp] theorem regs_inSampling (g : Group) (s : State) : regs g (inSampling s) = regs g s := by
  cases g <;> rfl

/-- Both files are written and both groups are no longer fresh after a sample; the second conversion reads nothing the
first one wrote (R132). -/
theorem regs_sample (g : Group) (s : State) :
    regs g (clearBothFresh (writeOut .gyro (writeOut .accel s))) = clearFresh (storeOut (converted g s) (regs g s)) := by
  cases g <;> rfl

/-! ### What a command can do -/

/-- The next states of a command run in `s`: it is rejected and writes only its code, or a load reports a bus error, or it
succeeds and does what its rule says (R90, R100, R101, R130 to R132, R152). -/
inductive CommandEffect (s : State) : Instr → State → Prop
  /-- The command is rejected. -/
  | rejected (i : Instr) (c : ErrCode) (hc : c ≠ .ok) : CommandEffect s i (finish c s)
  /-- A load of group g ends in a bus error (R152). -/
  | busError (g : Group) (bst d0 d1 d2 d3 d4 d5 : Byte) (c : ErrCode) (hs : s.drv ≠ .uninit)
    (hc : bst = 0x01#8 ∧ c = .busAddr ∨ bst = 0x02#8 ∧ c = .busRead) :
    CommandEffect s (loadInstr g bst d0 d1 d2 d3 d4 d5) (finish c (setRegs g (clearFresh (regs g s)) s))
  /-- A successful CFG. -/
  | configured (afs gfs : BitVec 2) (hs : s.drv = .uninit) :
    CommandEffect s (.cfg afs gfs) (finish .ok { s with
      drv := .configured, accel := { s.accel with fs := afs }, gyro := { s.gyro with fs := gfs } })
  /-- A successful load of group g. -/
  | loaded (g : Group) (d0 d1 d2 d3 d4 d5 : Byte) (hs : s.drv ≠ .uninit) :
    CommandEffect s (loadInstr g 0x00#8 d0 d1 d2 d3 d4 d5) (finish .ok
      (inSampling (setRegs g (storeRaw (decodeAxes d0 d1 d2 d3 d4 d5) (regs g s)) s)))
  /-- A successful conversion of group g. -/
  | converted (g : Group) (hs : s.drv ≠ .uninit) (hl : (regs g s).loaded = true) :
    CommandEffect s (convInstr g) (finish .ok (inSampling (writeOut g s)))
  /-- A successful SMP. -/
  | sampled (hs : s.drv ≠ .uninit) (hf : ∀ g, (regs g s).fresh = true) :
    CommandEffect s .smp (finish .ok
      (inSampling (clearBothFresh (writeOut .gyro (writeOut .accel s)))))

theorem effect_of_loadGroup {g : Group} {bst d0 d1 d2 d3 d4 d5 : Byte} {s t : State}
    (h : loadGroup g bst (decodeAxes d0 d1 d2 d3 d4 d5) s = .next t) :
    CommandEffect s (loadInstr g bst d0 d1 d2 d3 d4 d5) t := by
  rcases loadGroup_cases h with ⟨-, rfl⟩ | ⟨-, -, rfl⟩ | ⟨hs, hb, rfl⟩ | ⟨hs, hb, rfl⟩ | ⟨hs, h1, h2, hb, rfl⟩
  · exact .rejected _ _ (by decide)
  · exact .rejected _ _ (by decide)
  · exact .busError _ _ _ _ _ _ _ _ _ hs (.inl ⟨hb, rfl⟩)
  · exact .busError _ _ _ _ _ _ _ _ _ hs (.inr ⟨hb, rfl⟩)
  · obtain rfl := busStatus_zero hb h1 h2
    exact .loaded _ _ _ _ _ _ _ hs

theorem effect_of_convertGroup {g : Group} {s t : State} (h : convertGroup g s = .next t) :
    CommandEffect s (convInstr g) t := by
  rcases convertGroup_cases h with ⟨-, rfl⟩ | ⟨-, -, rfl⟩ | ⟨hs, hl, rfl⟩
  · exact .rejected _ _ (by decide)
  · exact .rejected _ _ (by decide)
  · exact .converted _ hs hl

/-- What a command can do. -/
theorem effect_of_exec {i : Instr} {s t : State} (h : exec i s = .next t) : CommandEffect s i t := by
  cases i with
  | cfg afs gfs =>
    rcases configure_cases h with ⟨hs, rfl⟩ | ⟨-, rfl⟩
    · exact .configured _ _ hs
    · exact .rejected _ _ (by decide)
  | lda => exact effect_of_loadGroup (g := .accel) h
  | ldg => exact effect_of_loadGroup (g := .gyro) h
  | cva => exact effect_of_convertGroup (g := .accel) h
  | cvg => exact effect_of_convertGroup (g := .gyro) h
  | smp =>
    rcases sampleBoth_cases h with ⟨-, rfl⟩ | ⟨-, -, rfl⟩ | ⟨hs, hA, hG, rfl⟩
    · exact .rejected _ _ (by decide)
    · exact .rejected _ _ (by decide)
    · refine .sampled hs fun g => ?_
      cases g
      · exact hA
      · exact hG

/-- What an issue can do: a reserved word writes only its code, a command has its effect. -/
theorem cmdIssue_cases {w : Word} {s t : State} (h : cmdIssue w s = .next t) :
    ((∃ why, decode w = .illegal why) ∧ t = finish .illegalCommand s) ∨
    ∃ i, decode w = .command i ∧ CommandEffect s i t := by
  unfold cmdIssue at h
  split at h
  · exact .inr ⟨_, ‹_›, effect_of_exec h⟩
  · exact .inl ⟨⟨_, ‹_›⟩, (Host.Outcome.next.inj h).symm⟩

/-! ### Who writes what -/

/-- Settles O24, by what each effect writes. -/
theorem whoWritesWhat : Obligations.WhoWritesWhat := by
  intro i s t h
  obtain ⟨u, hu, -, hparams, hscript⟩ := exec_completes i s
  obtain rfl := Host.Outcome.next.inj (hu.symm.trans h)
  refine ⟨hparams, hscript, ?_⟩
  cases effect_of_exec h with
  | rejected _ c _ => cases i <;> exact ⟨rfl, rfl⟩
  | busError g => cases g <;> exact ⟨rfl, rfl⟩
  | configured => exact ⟨rfl, rfl⟩
  | loaded g => cases g <;> exact ⟨rfl, rfl⟩
  | converted g => cases g <;> exact ⟨rfl, rfl⟩
  | sampled => exact ⟨rfl, rfl⟩

/-! ### The transitions of `STATE` -/

@[simp] theorem isSampling_loadInstr (g : Group) (bst d0 d1 d2 d3 d4 d5 : Byte) :
    isSampling (loadInstr g bst d0 d1 d2 d3 d4 d5) = true := by
  cases g <;> rfl

@[simp] theorem isSampling_convInstr (g : Group) : isSampling (convInstr g) = true := by
  cases g <;> rfl

/-- A command fails and leaves `STATE` as it was, or it is a CFG that succeeds in `UNINIT`, or a sampling command that
succeeds past `UNINIT` and leaves `SAMPLING` (R22, R40). -/
theorem effect_drv {i : Instr} {s t : State} (h : CommandEffect s i t) :
    (t.err ≠ .ok ∧ t.drv = s.drv) ∨
    (t.err = .ok ∧ s.drv = .uninit ∧ t.drv = .configured ∧ ∃ afs gfs, i = .cfg afs gfs) ∨
    (t.err = .ok ∧ s.drv ≠ .uninit ∧ t.drv = .sampling ∧ isSampling i = true) := by
  cases h with
  | rejected _ c hc => exact .inl ⟨hc, rfl⟩
  | busError g _ _ _ _ _ _ _ c _ hc =>
    have hne : c ≠ .ok := by rcases hc with ⟨-, rfl⟩ | ⟨-, rfl⟩ <;> decide
    exact .inl ⟨hne, setRegs_drv ..⟩
  | configured _ _ hs => exact .inr (.inl ⟨rfl, hs, rfl, _, _, rfl⟩)
  | loaded _ _ _ _ _ _ _ hs => exact .inr (.inr ⟨rfl, hs, rfl, isSampling_loadInstr ..⟩)
  | converted _ hs _ => exact .inr (.inr ⟨rfl, hs, rfl, isSampling_convInstr _⟩)
  | sampled hs _ => exact .inr (.inr ⟨rfl, hs, rfl, rfl⟩)

/-- The two values of `STATE` past `UNINIT` (R22). -/
theorem configured_or_sampling {d : DriverState} (h : d ≠ .uninit) : d = .configured ∨ d = .sampling := by
  cases d with
  | uninit => exact absurd rfl h
  | configured => exact .inl rfl
  | sampling => exact .inr rfl

/-- Settles O29: a command's transition, the reset, and no transition by anything else. -/
theorem stateTransitions : Obligations.StateTransitions := by
  intro s t h
  rcases step_cases h with ⟨-, rfl⟩ | ⟨w, rest, hw, hc⟩ | ⟨i, rest, -, rfl⟩ | ⟨rest, hr, rfl⟩
  · exact .inl rfl
  · rcases cmdIssue_cases hc with ⟨-, rfl⟩ | ⟨i, hi, he⟩
    · exact .inl rfl
    rcases effect_drv he with ⟨-, hd⟩ | ⟨hok, hs, hd, afs, gfs, rfl⟩ | ⟨hok, hs, hd, hsamp⟩
    · exact .inl hd
    · exact .inr (.inl ⟨hs, hd, hok, w, rest, afs, gfs, hw, hi⟩)
    · rcases configured_or_sampling hs with hs | hs
      · exact .inr (.inr (.inl ⟨hs, hd, hok, w, rest, i, hw, hi, hsamp⟩))
      · exact .inl (hd.trans hs.symm)
  · exact .inl rfl
  · refine .inr (.inr (.inr ⟨rfl, ?_⟩))
    rcases hr with hr | ⟨w, hr⟩ <;> exact ⟨_, rest, hr, rfl⟩

/-! ### The invariant -/

theorem groupOk_of_inv {s : State} (h : Inv s) (g : Group) : GroupOk s.drv (regs g s) := by
  cases g
  · exact h.accel
  · exact h.gyro

/-- A command that leaves both groups in agreement, and `SAMPLING` only with a loaded group, keeps the invariant: its
response is the code it writes (R52). -/
theorem inv_finish {u : State} (c : ErrCode) (hg : ∀ g, GroupOk u.drv (regs g u))
    (hl : u.drv = .sampling → ∃ g, (regs g u).loaded = true) : Inv (finish c u) where
  accel := hg .accel
  gyro := hg .gyro
  sampling_loaded hd := by
    obtain ⟨g, hg⟩ := hl hd
    cases g
    · exact .inl hg
    · exact .inr hg
  resp_err _ hc := Response.code.inj hc

theorem exists_loaded_of_inv {s : State} (h : Inv s) (hd : s.drv = .sampling) : ∃ g, (regs g s).loaded = true := by
  rcases h.sampling_loaded hd with hl | hl
  · exact ⟨.accel, hl⟩
  · exact ⟨.gyro, hl⟩

/-- Every effect of a command keeps the invariant. -/
theorem effect_keeps_inv {i : Instr} {s t : State} (hi : Inv s) (h : CommandEffect s i t) : Inv t := by
  have hg := groupOk_of_inv hi
  have hsampling (g : Group) : GroupOk .sampling (regs g s) := groupOk_sampling (hg g)
  cases h with
  | rejected _ c _ => exact inv_finish c hg (exists_loaded_of_inv hi)
  | busError g _ _ _ _ _ _ _ c _ _ =>
    refine inv_finish c (fun g' => ?_) (fun hd => ?_)
    · rw [setRegs_drv, regs_setRegs_ite]
      split
      · exact groupOk_clearFresh (hg g)
      · exact hg g'
    · rw [setRegs_drv] at hd
      obtain ⟨g', hl⟩ := exists_loaded_of_inv hi hd
      exact ⟨g', (regs_setRegs_field (·.loaded) (clearFresh_loaded _) g').trans hl⟩
  | configured afs gfs hs =>
    rw [hs] at hg
    refine inv_finish .ok (fun g => ?_) (fun hd => by cases hd)
    cases g
    · exact groupOk_configured (hg .accel) afs
    · exact groupOk_configured (hg .gyro) gfs
  | loaded g _ _ _ _ _ _ _ =>
    refine inv_finish .ok (fun g' => ?_) (fun _ => ⟨g, by simp⟩)
    rw [inSampling_drv, regs_inSampling, regs_setRegs_ite]
    split
    · exact groupOk_storeRaw (hg g) _
    · exact hsampling g'
  | converted g _ hl =>
    refine inv_finish .ok (fun g' => ?_) (fun _ => ⟨g, by simpa [writeOut] using hl⟩)
    rw [inSampling_drv, regs_inSampling, writeOut, regs_setRegs_ite]
    split
    · exact groupOk_storeOut (hsampling g) hl _
    · exact hsampling g'
  | sampled _ hf =>
    have hl (g : Group) : (regs g s).loaded = true := (hg g).fresh_loaded (hf g)
    refine inv_finish .ok (fun g => ?_) (fun _ => ⟨.accel, hl .accel⟩)
    rw [inSampling_drv, regs_inSampling, regs_sample]
    exact groupOk_clearFresh (groupOk_storeOut (hsampling g) (hl g) _)

/-- Settles O51: each of the host's actions keeps the invariant. -/
theorem stepKeepsInvariant : Obligations.StepKeepsInvariant := by
  intro s t hi h
  have hi' (rest : List HostEvent) : Inv { s with script := rest } :=
    ⟨hi.accel, hi.gyro, hi.sampling_loaded, hi.resp_err⟩
  rcases step_cases h with ⟨-, rfl⟩ | ⟨w, rest, -, hc⟩ | ⟨i, rest, -, rfl⟩ | ⟨rest, -, rfl⟩
  · exact hi
  · rcases cmdIssue_cases hc with ⟨-, rfl⟩ | ⟨i, -, he⟩
    · exact inv_finish _ (groupOk_of_inv (hi' rest)) (exists_loaded_of_inv (hi' rest))
    · exact effect_keeps_inv (hi' rest) he
  · exact ⟨hi.accel, hi.gyro, hi.sampling_loaded, fun _ hc => by cases hc⟩
  · exact ⟨groupOk_reset, groupOk_reset, fun hd => (by cases hd), fun _ hc => by cases hc⟩

/-! ### The ranges on a run -/

/-- `t` is past `UNINIT` with the ranges and the build of `s` (R23). -/
structure RangesKept (s t : State) : Prop where
  drv : t.drv ≠ .uninit
  fs : ∀ g, (regs g t).fs = (regs g s).fs
  params : t.params = s.params

/-- Past `UNINIT` no command moves a range: CFG is rejected there (R90). -/
theorem effect_keeps_fs {i : Instr} {s t : State} (hs : s.drv ≠ .uninit) (h : CommandEffect s i t) (g : Group) :
    (regs g t).fs = (regs g s).fs := by
  cases h with
  | rejected _ c _ => rw [regs_finish]
  | busError => rw [regs_finish]; exact regs_setRegs_field (·.fs) (clearFresh_fs _) g
  | configured _ _ hu => exact absurd hu hs
  | loaded => rw [regs_finish, regs_inSampling]; exact regs_setRegs_field (·.fs) (storeRaw_fs ..) g
  | converted => rw [regs_finish, regs_inSampling]; exact regs_setRegs_field (·.fs) (storeOut_fs ..) g
  | sampled => rw [regs_finish, regs_inSampling, regs_sample, clearFresh_fs, storeOut_fs]

/-- Past `UNINIT` a step that is no reset keeps the ranges and the build. -/
theorem step_keeps_ranges {s t : State} (hs : s.drv ≠ .uninit) (hn : ∀ e ∈ s.script, isReset e = false)
    (h : step s = .next t) : RangesKept s t := by
  rcases step_cases h with ⟨-, rfl⟩ | ⟨w, rest, -, hc⟩ | ⟨i, rest, -, rfl⟩ | ⟨rest, hr, -⟩
  · exact ⟨hs, fun _ => rfl, rfl⟩
  · obtain ⟨u, hu, -, hparams, -⟩ := cmdIssue_completes w { s with script := rest }
    obtain rfl := Host.Outcome.next.inj (hu.symm.trans hc)
    rcases cmdIssue_cases hc with ⟨-, rfl⟩ | ⟨i, -, he⟩
    · exact ⟨hs, fun g => by cases g <;> rfl, rfl⟩
    refine ⟨?_, fun g => ?_, hparams⟩
    · rcases effect_drv he with ⟨-, hd⟩ | ⟨-, hu, -⟩ | ⟨-, -, hd, -⟩
      · exact hd ▸ hs
      · exact absurd hu hs
      · simp [hd]
    · rw [effect_keeps_fs (s := { s with script := rest }) hs he, regs_withScript]
  · exact ⟨hs, fun g => by cases g <;> rfl, rfl⟩
  · rcases hr with hr | ⟨w, hr⟩ <;> simp [hr, isReset] at hn

/-- A step takes the first action off the host's script, if there is one. -/
theorem step_script_tail {s t : State} (h : step s = .next t) : t.script = s.script.tail := by
  cases hs : s.script with
  | nil =>
    rcases step_cases h with ⟨-, rfl⟩ | ⟨w, rest, hr, -⟩ | ⟨i, rest, hr, -⟩ | ⟨rest, hr | ⟨w, hr⟩, -⟩
    · exact hs
    all_goals rw [hs] at hr; cases hr
  | cons e rest => exact step_script hs h

/-- Settles O54, by induction over the run. -/
theorem rangesFixedUntilReset : Obligations.RangesFixedUntilReset := by
  intro s t k hs hn h
  induction k generalizing s with
  | zero =>
    obtain rfl := Host.Outcome.next.inj h
    exact ⟨hs, rfl, rfl, rfl⟩
  | succ k ih =>
    obtain ⟨u, hu, hrun⟩ := run_succ_cases h
    obtain ⟨hd, hfs, hp⟩ := step_keeps_ranges hs hn hu
    have hnu : ∀ e ∈ u.script, isReset e = false := by
      rw [step_script_tail hu]
      exact fun e he => hn e (List.mem_of_mem_tail he)
    obtain ⟨htd, hta, htg, htp⟩ := ih u hd hnu hrun
    exact ⟨htd, hta.trans (hfs .accel), htg.trans (hfs .gyro), htp.trans hp⟩

/-! ### The flags -/

/-- What may become of a group's flags over a step that is no reset: `LOADED` and `OUTV` stay set, and `FRESH` stays set
unless `clears` holds (R27 to R29). -/
structure FlagsKept (clears : Prop) (r r' : GroupRegs) : Prop where
  loaded : r.loaded = true → r'.loaded = true
  outv : r.outv = true → r'.outv = true
  fresh : r.fresh = true → r'.fresh = false → clears

theorem flagsKept_self (clears : Prop) (r : GroupRegs) : FlagsKept clears r r :=
  ⟨id, id, fun h h' => by simp [h] at h'⟩

theorem flagsKept_withFs (clears : Prop) (fs : BitVec 2) (r : GroupRegs) : FlagsKept clears r { r with fs := fs } :=
  ⟨id, id, fun h h' => by simp [h] at h'⟩

theorem flagsKept_clearFresh {clears : Prop} (hc : clears) (r : GroupRegs) : FlagsKept clears r (clearFresh r) :=
  ⟨id, id, fun _ _ => hc⟩

theorem flagsKept_storeRaw (clears : Prop) (t : Triple 16) (r : GroupRegs) : FlagsKept clears r (storeRaw t r) :=
  ⟨fun _ => rfl, id, fun _ h' => by simp at h'⟩

theorem flagsKept_storeOut (clears : Prop) (t : Triple 64) (r : GroupRegs) : FlagsKept clears r (storeOut t r) :=
  ⟨id, fun _ => rfl, fun h h' => by simp [h] at h'⟩

/-- What clears `FRESH` of group g: a successful SMP, which clears both, or a load of g that ends in a bus error (R28). -/
def ClearsFresh (g : Group) (i : Instr) (t : State) : Prop :=
  (i = .smp ∧ t.err = .ok ∧ (regs .accel t).fresh = false ∧ (regs .gyro t).fresh = false) ∨
  ∃ bst d0 d1 d2 d3 d4 d5, i = loadInstr g bst d0 d1 d2 d3 d4 d5 ∧ (t.err = .busAddr ∨ t.err = .busRead)

/-- What each effect does to the flags of a group. -/
theorem effect_flagsKept {i : Instr} {s t : State} (h : CommandEffect s i t) (g : Group) :
    FlagsKept (ClearsFresh g i t) (regs g s) (regs g t) := by
  cases h with
  | rejected _ c _ => rw [regs_finish]; exact flagsKept_self _ _
  | busError g' _ _ _ _ _ _ _ _ _ hc =>
    rw [regs_finish, regs_setRegs_ite]
    split
    · subst g
      exact flagsKept_clearFresh (Or.inr ⟨_, _, _, _, _, _, _, rfl, hc.imp And.right And.right⟩) _
    · exact flagsKept_self _ _
  | configured =>
    cases g
    · exact flagsKept_withFs _ _ _
    · exact flagsKept_withFs _ _ _
  | loaded g' =>
    rw [regs_finish, regs_inSampling, regs_setRegs_ite]
    split
    · subst g; exact flagsKept_storeRaw _ _ _
    · exact flagsKept_self _ _
  | converted g' =>
    rw [regs_finish, regs_inSampling, writeOut, regs_setRegs_ite]
    split
    · subst g; exact flagsKept_storeOut _ _ _
    · exact flagsKept_self _ _
  | sampled =>
    rw [regs_finish, regs_inSampling, regs_sample]
    exact ⟨id, fun _ => rfl, fun _ _ => Or.inl ⟨rfl, rfl, rfl, rfl⟩⟩

/-- Settles O30, by the flags of each effect. -/
theorem flagsAreClearedOnlyAsRuled : Obligations.FlagsAreClearedOnlyAsRuled := by
  intro g s t e rest hs hn h
  have unchanged {P : Prop} (hg : regs g t = regs g s) : FlagsKept P (regs g s) (regs g t) :=
    hg ▸ flagsKept_self _ _
  suffices hk : FlagsKept (∃ w i, e = .cmd w ∧ decode w = .command i ∧ ClearsFresh g i t) (regs g s) (regs g t) by
    refine ⟨hk.loaded, hk.outv, fun hf hf' => ?_⟩
    obtain ⟨w, i, rfl, hi, hclears⟩ := hk.fresh hf hf'
    rcases hclears with ⟨rfl, hok, hA, hG⟩ | ⟨bst, d0, d1, d2, d3, d4, d5, rfl, herr⟩
    · exact .inl ⟨w, rfl, hi, hok, hA, hG⟩
    · exact .inr ⟨w, bst, d0, d1, d2, d3, d4, d5, rfl, hi, herr⟩
  rcases step_cases h with ⟨-, rfl⟩ | ⟨w, r, hw, hc⟩ | ⟨i, r, -, rfl⟩ | ⟨r, hr, -⟩
  · exact unchanged rfl
  · obtain rfl : e = .cmd w := (List.cons.inj (hs.symm.trans hw)).1
    rcases cmdIssue_cases hc with ⟨-, rfl⟩ | ⟨i, hi, he⟩
    · exact unchanged (by cases g <;> rfl)
    · have hk := effect_flagsKept he g
      rw [regs_withScript] at hk
      exact ⟨hk.loaded, hk.outv, fun hf hf' => ⟨w, i, rfl, hi, hk.fresh hf hf'⟩⟩
  · exact unchanged (by cases g <;> rfl)
  · rw [hs] at hr
    rcases hr with hr | ⟨w, hr⟩ <;> cases hr <;> cases hn

/-! ### Changing a part of the state that a command does not read -/

/-- Change the next state of an outcome. -/
def mapNext (f : State → State) : Result → Result
  | .next s => .next (f s)
  | .fault r => .fault r
  | .refused r => .refused r

/-- Two runs whose tests agree take the same branch: a relation of outcomes is shown branch by branch. -/
theorem branches_related {c d : Prop} [Decidable c] [Decidable d] {a b a' b' : Result} (P : Result → Result → Prop)
    (h : c ↔ d) (ha : P a a') (hb : P b b') : P (if c then a else b) (if d then a' else b') := by
  by_cases hc : c
  · rw [if_pos hc, if_pos (h.mp hc)]
    exact ha
  · rw [if_neg hc, if_neg (fun hd => hc (h.mpr hd))]
    exact hb

/-- What a command answers in `SAMPLING`, from what it answers in `CONFIGURED`. -/
def AnswersInSampling (o' o : Result) : Prop := o' = mapNext inSampling o

/-- The two states give the test for `UNINIT` the same answer. -/
theorem inSampling_uninit_iff {s : State} (hs : s.drv = .configured) :
    (inSampling s).drv = .uninit ↔ s.drv = .uninit := by
  simp [hs]

theorem loadGroup_inSampling (g : Group) (bst : Byte) (v : Triple 16) {s : State} (hs : s.drv = .configured) :
    AnswersInSampling (loadGroup g bst v (inSampling s)) (loadGroup g bst v s) := by
  refine branches_related AnswersInSampling .rfl rfl
    (branches_related AnswersInSampling (inSampling_uninit_iff hs) rfl ?_)
  refine branches_related AnswersInSampling .rfl ?_ (branches_related AnswersInSampling .rfl ?_ ?_)
  all_goals cases g <;> rfl

theorem convertGroup_inSampling (g : Group) {s : State} (hs : s.drv = .configured) :
    AnswersInSampling (convertGroup g (inSampling s)) (convertGroup g s) := by
  refine branches_related AnswersInSampling (inSampling_uninit_iff hs) rfl ?_
  refine branches_related AnswersInSampling (by rw [regs_inSampling]) rfl ?_
  cases g <;> rfl

theorem sampleBoth_inSampling {s : State} (hs : s.drv = .configured) :
    AnswersInSampling (sampleBoth (inSampling s)) (sampleBoth s) :=
  branches_related AnswersInSampling (inSampling_uninit_iff hs) rfl
    (branches_related AnswersInSampling .rfl rfl rfl)

/-- A command in `SAMPLING` does what it does in `CONFIGURED`, but for `STATE` (R40). -/
theorem exec_inSampling (i : Instr) {s : State} (hs : s.drv = .configured) :
    AnswersInSampling (exec i (inSampling s)) (exec i s) := by
  cases i with
  | cfg =>
    have hlocked {u : State} (hu : u.drv ≠ .uninit) (afs gfs : BitVec 2) :
        configure afs gfs u = raise .configLocked u := if_neg hu
    rw [exec_cfg, exec_cfg, hlocked (by simp), hlocked (by simp [hs])]
    rfl
  | lda => exact loadGroup_inSampling .accel _ _ hs
  | ldg => exact loadGroup_inSampling .gyro _ _ hs
  | cva => exact convertGroup_inSampling .accel hs
  | cvg => exact convertGroup_inSampling .gyro hs
  | smp => exact sampleBoth_inSampling hs

/-- Settles O28: the first two clauses by the transition of each effect, the third by `exec_inSampling`. -/
theorem samplingTransition : Obligations.SamplingTransition := by
  intro i s t h
  refine ⟨fun hi hok hs => ?_, fun hi hn => ?_, fun hs => ?_⟩
  · rcases effect_drv (effect_of_exec h) with ⟨herr, -⟩ | ⟨-, hu, -⟩ | ⟨-, -, hd, -⟩
    · exact absurd hok herr
    · rw [hs] at hu; cases hu
    · exact hd
  · rcases effect_drv (effect_of_exec h) with ⟨-, hd⟩ | ⟨-, -, -, _, _, rfl⟩ | ⟨hok, hs, hd, -⟩
    · exact hd
    · cases hi
    · rcases configured_or_sampling hs with hc | hc
      · exact absurd ⟨hok, hc⟩ hn
      · rw [hd, hc]
  · exact (exec_inSampling i hs).trans (congrArg (mapNext inSampling) h)

/-- Outcomes that differ at most in the output files. -/
def SameButOut (o' o : Result) : Prop := mapNext eraseOut o' = mapNext eraseOut o

theorem loadGroup_eraseOut (g : Group) (bst : Byte) (v : Triple 16) (s : State) :
    SameButOut (loadGroup g bst v (eraseOut s)) (loadGroup g bst v s) := by
  refine branches_related SameButOut .rfl rfl (branches_related SameButOut .rfl rfl ?_)
  refine branches_related SameButOut .rfl ?_ (branches_related SameButOut .rfl ?_ ?_)
  all_goals cases g <;> rfl

theorem convertGroup_eraseOut (g : Group) (s : State) :
    SameButOut (convertGroup g (eraseOut s)) (convertGroup g s) := by
  refine branches_related SameButOut .rfl rfl (branches_related SameButOut ?_ rfl ?_)
  all_goals cases g <;> rfl

/-- The output files a command starts from do not reach what it leaves outside them (R37). -/
theorem exec_eraseOut (i : Instr) (s : State) :
    SameButOut (exec i (eraseOut s)) (exec i s) := by
  cases i with
  | cfg => exact branches_related SameButOut .rfl rfl rfl
  | lda => exact loadGroup_eraseOut .accel _ _ s
  | ldg => exact loadGroup_eraseOut .gyro _ _ s
  | cva => exact convertGroup_eraseOut .accel s
  | cvg => exact convertGroup_eraseOut .gyro s
  | smp => exact branches_related SameButOut .rfl rfl (branches_related SameButOut .rfl rfl rfl)

/-- Settles O35: both runs agree with the run from the state with its files blanked. -/
theorem outputsAreNeverRead : Obligations.OutputsAreNeverRead := by
  intro i s s' t hss h
  obtain ⟨t', h', -⟩ := exec_completes i s'
  refine ⟨t', h', Host.Outcome.next.inj (?_ : mapNext eraseOut (.next t) = mapNext eraseOut (.next t'))⟩
  calc mapNext eraseOut (.next t)
    _ = mapNext eraseOut (exec i s) := by rw [h]
    _ = mapNext eraseOut (exec i (eraseOut s)) := (exec_eraseOut i s).symm
    _ = mapNext eraseOut (exec i (eraseOut s')) := by rw [hss]
    _ = mapNext eraseOut (exec i s') := exec_eraseOut i s'
    _ = mapNext eraseOut (.next t') := by rw [h']

/-! ### The read index map -/

/-- A concatenation as a number. -/
theorem toNat_append_eq_add {m n : Nat} (x : BitVec m) (y : BitVec n) :
    (x ++ y).toNat = 2 ^ n * x.toNat + y.toNat := by
  rw [BitVec.toNat_append, ← Nat.shiftLeft_add_eq_or_of_lt y.isLt, Nat.shiftLeft_eq, Nat.mul_comm]

/-- `STATUS` as the sum of its fields, each at its bit position (R31). -/
theorem statusWord_toNat (s : State) : (statusWord s).toNat =
    (driverCode s.drv).toNat + 2 ^ 4 * (errCode s.err).toNat
    + 2 ^ 8 * s.accel.loaded.toNat + 2 ^ 9 * s.gyro.loaded.toNat
    + 2 ^ 10 * s.accel.fresh.toNat + 2 ^ 11 * s.gyro.fresh.toNat
    + 2 ^ 12 * s.accel.outv.toNat + 2 ^ 13 * s.gyro.outv.toNat := by
  simp only [statusWord, toNat_append_eq_add, BitVec.toNat_ofBool, BitVec.toNat_ofNat]
  omega

/-- Settles O11: the sum of the fields, with the codes of `STATE` and `ERR` read off. -/
theorem statusPacking : Obligations.StatusPacking := by
  refine ⟨rfl, fun s => (statusWord_toNat s).trans ?_⟩
  congr
  · cases s.drv <;> rfl
  · cases s.err <;> rfl

/-- `CONFIG` as the sum of its fields, each at its bit position (R32). -/
theorem configWord_toNat (s : State) : (configWord s).toNat =
    s.accel.fs.toNat + 2 ^ 2 * s.gyro.fs.toNat + 2 ^ 4 * (unitBit s.params.accelUnit).toNat
    + 2 ^ 5 * (modeBit s.params.convMode).toNat := by
  simp only [configWord, toNat_append_eq_add, BitVec.toNat_ofBool, BitVec.toNat_ofNat]
  omega

/-- Settles O12: the sum of the fields, with the codes of the unit and the mode read off. -/
theorem configPacking : Obligations.ConfigPacking := by
  refine fun s => (configWord_toNat s).trans ?_
  congr
  · cases s.params.accelUnit <;> rfl
  · cases s.params.convMode <;> rfl

theorem packRaw_toNat (t : Triple 16) :
    (packRaw t).toNat = t.x.toNat + 2 ^ 16 * t.y.toNat + 2 ^ 32 * t.z.toNat := by
  simp only [packRaw, toNat_append_eq_add, BitVec.toNat_ofNat]
  omega

/-- The indices of R35 are none of the ten that have a meaning. -/
theorem regRead_reserved (s : State) {i : BitVec 8} (hi : 10 ≤ i.toNat) : regRead s i = 0#64 := by
  have hne (n : Nat) (hn : n < 10) : i ≠ BitVec.ofNat 8 n := by
    rintro rfl
    rw [BitVec.toNat_ofNat] at hi
    omega
  simp [regRead, hne]

/-- Settles O13: an index is the pattern of its number. -/
theorem readIndexMap : Obligations.ReadIndexMap := by
  intro s i
  have heq {n : Nat} (h : i.toNat = n) : i = BitVec.ofNat 8 n := by rw [← h, BitVec.ofNat_toNat, BitVec.setWidth_eq]
  refine ⟨?_, ?_, ?_, ?_, ?_, ?_, ?_, ?_, regRead_reserved s⟩
  iterate 6
    · intro h
      rw [heq h]
      rfl
  · intro h
    rw [heq h]
    exact packRaw_toNat s.accel.raw
  · intro h
    rw [heq h]
    exact packRaw_toNat s.gyro.raw

end Sys2Proof.Proofs

namespace Sys2Proof.Proofs

/-!
The memory and port statements (spec 20_memory R50 to R57): what each action of the host makes of a step, how an encoded
command is read back, and what becomes of each group's files over a step.
-/

open Sys2Proof.Machine Sys2Proof.Laws

/-! ### The host's next action -/

/-- A step is the block's reaction to the host's next action. -/
theorem step_of_script {s : State} {e : HostEvent} {rest : List HostEvent} (hs : s.script = e :: rest) :
    step s = hostAction e { s with script := rest } := by
  simp only [step, nextAction, hs]

theorem cmdIssue_of_decode {w : Word} {i : Instr} (h : decode w = .command i) (s : State) :
    cmdIssue w s = exec i s := by
  simp only [cmdIssue, h]

/-- Settles O6: the next action is the issue of a word that decodes to the command. -/
theorem stepRunsDecodedCommand : Obligations.StepRunsDecodedCommand :=
  fun _ _ _ _ hs hi => (step_of_script hs).trans (cmdIssue_of_decode hi _)

/-- Settles O8, by what every issue completes with. -/
theorem responseIsNewErr : Obligations.ResponseIsNewErr := by
  intro s t w rest hs h
  obtain ⟨u, hu, hresp, hparams, hscript⟩ := cmdIssue_completes w { s with script := rest }
  obtain rfl := Host.Outcome.next.inj (hu.symm.trans ((step_of_script hs).symm.trans h))
  exact ⟨hresp, hscript, hparams⟩

/-! ### Register reads -/

/-- A step that reads a register answers its value and changes nothing of the block (R51). -/
theorem step_read {s : State} {i : BitVec 8} {rest : List HostEvent} (hs : s.script = .read i :: rest) :
    step s = .next { s with resp := .data (regRead s i), script := rest } :=
  step_of_script hs

/-- Settles O9, by induction over the reads before: none of them changes what the last one sees. -/
theorem regReadHasNoSideEffect : Obligations.RegReadHasNoSideEffect := by
  intro s i before rest hs
  induction before generalizing s with
  | nil =>
    rw [List.length_nil, run_succ 0 (step_read hs)]
    rfl
  | cons j before ih =>
    rw [List.length_cons, run_succ _ (step_read hs), ih _ rfl]
    rfl

/-- Settles O10: two read steps around the issue. -/
theorem readsAreOrderedWithCommands : Obligations.ReadsAreOrderedWithCommands := by
  intro s t w i j rest hs h
  have hread := step_read hs
  obtain ⟨t', hissue, hend⟩ := run_succ_cases ((run_succ 1 hread).symm.trans h)
  obtain rfl := Host.Outcome.next.inj hend
  exact ⟨_, _, hread, rfl, hissue, step_read (step_script rfl hissue), rfl⟩

/-! ### An encoded command is read back -/

/-- The opcode field of an encoded command (R70, R71). -/
theorem opcodeOf_encode (i : Instr) : opcodeOf (encode i) = opcode i := by
  cases i with
  | cfg => exact OpcodeByte.cfg ..
  | lda => exact OpcodeByte.lda ..
  | ldg => exact OpcodeByte.ldg ..
  | cva => exact OpcodeByte.cva
  | cvg => exact OpcodeByte.cvg
  | smp => exact OpcodeByte.smp

/-- Format C, cut at its fields (R72). -/
theorem decodeC_encode (afs gfs : BitVec 2) : decodeC (encode (.cfg afs gfs)) = .command (.cfg afs gfs) := by
  have hzero : (encode (.cfg afs gfs)).extractLsb' 12 52 = 0#52 := by
    simp (disch := decide) only [encode, BitVec.extractLsb'_append_eq_of_le]
    exact BitVec.extractLsb'_eq_self
  have hafs : (encode (.cfg afs gfs)).extractLsb' 8 2 = afs := by
    simp (disch := decide) only [encode, BitVec.extractLsb'_append_eq_of_le]
    exact BitVec.extractLsb'_append_eq_right
  have hgfs : (encode (.cfg afs gfs)).extractLsb' 10 2 = gfs := by
    simp (disch := decide) only [encode, BitVec.extractLsb'_append_eq_of_le]
    exact BitVec.extractLsb'_append_eq_right
  rw [decodeC, if_pos hzero, hafs, hgfs]

theorem bstOf_encodeL (op bst d0 d1 d2 d3 d4 d5 : Byte) : bstOf (encodeL op bst d0 d1 d2 d3 d4 d5) = bst := by
  rw [bstOf, encodeL, BitVec.extractLsb'_append_eq_of_le (by decide), BitVec.extractLsb'_append_eq_right]

theorem dataByte_encodeL (op bst d0 d1 d2 d3 d4 d5 : Byte) (w : Word) (hw : w = encodeL op bst d0 d1 d2 d3 d4 d5) :
    dataByte w 0 = d0 ∧ dataByte w 1 = d1 ∧ dataByte w 2 = d2 ∧
    dataByte w 3 = d3 ∧ dataByte w 4 = d4 ∧ dataByte w 5 = d5 := by
  simp (disch := decide) only [hw, dataByte, encodeL, BitVec.extractLsb'_append_eq_of_le]
  have low {v : Nat} {hi : BitVec v} {lo : Byte} : (hi ++ lo).extractLsb' 0 8 = lo := BitVec.extractLsb'_append_eq_right
  exact ⟨low, low, low, low, low, BitVec.extractLsb'_eq_self⟩

/-- Format L, cut at its fields (R74). -/
theorem decodeL_encodeL (op bst d0 d1 d2 d3 d4 d5 : Byte) (h : busStatusOk bst = true)
    (mk : Byte → Byte → Byte → Byte → Byte → Byte → Byte → Instr) :
    decodeL (encodeL op bst d0 d1 d2 d3 d4 d5) mk = .command (mk bst d0 d1 d2 d3 d4 d5) := by
  obtain ⟨h0, h1, h2, h3, h4, h5⟩ := dataByte_encodeL op bst d0 d1 d2 d3 d4 d5 _ rfl
  rw [decodeL, bstOf_encodeL, if_pos h, h0, h1, h2, h3, h4, h5]

/-- A well-formed command is read back from its word: the opcode selects its format, the format its fields. -/
theorem decode_encode {i : Instr} (h : WellFormed i = true) : decode (encode i) = .command i := by
  cases i with
  | cfg => rw [decode, opcodeOf_encode]; exact decodeC_encode ..
  | lda => rw [decode, opcodeOf_encode]; exact decodeL_encodeL _ _ _ _ _ _ _ _ h _
  | ldg => rw [decode, opcodeOf_encode]; exact decodeL_encodeL _ _ _ _ _ _ _ _ h _
  | cva | cvg | smp => decide

theorem tableWord_toNat (w : Word) : tableWord 64 w.toNat = w := by
  rw [tableWord, Nat.mod_eq_of_lt w.isLt, BitVec.ofNat_toNat, BitVec.setWidth_eq]

/-- A placed word is issued in the next step, which leaves the script as it was before the word was placed (log 15). -/
theorem step_withFetchWord (s : State) (nbits w : Nat) :
    step (s.withFetchWord nbits w) = cmdIssue (tableWord nbits w) s :=
  step_of_script (issueNext_script ..)

/-- Settles O7, by the round trip of the encoding. -/
theorem placedWordRuns : Obligations.PlacedWordRuns := by
  intro s i hi
  have hdec := decode_encode hi
  constructor
  · rw [decodeTableWord, tableWord_toNat, hdec]
    rfl
  · rw [step_withFetchWord, tableWord_toNat, cmdIssue_of_decode hdec]

/-! ### The whole files of a group -/

/-- What a step can do to the block: nothing, the effect of the command issued, or a reset. -/
theorem step_block_cases {s t : State} (h : step s = .next t) :
    ((∀ g, regs g t = regs g s) ∧ t.params = s.params) ∨
    (∃ w rest i, s.script = .cmd w :: rest ∧ decode w = .command i ∧ CommandEffect { s with script := rest } i t) ∨
    ((∀ g, regs g t = GroupRegs.reset) ∧ ∃ e rest, s.script = e :: rest ∧ isReset e = true) := by
  rcases step_cases h with ⟨-, rfl⟩ | ⟨w, rest, hw, hc⟩ | ⟨i, rest, -, rfl⟩ | ⟨rest, hr, rfl⟩
  · exact .inl ⟨fun _ => rfl, rfl⟩
  · rcases cmdIssue_cases hc with ⟨-, rfl⟩ | ⟨i, hi, he⟩
    · exact .inl ⟨fun g => by rw [regs_finish, regs_withScript], rfl⟩
    · exact .inr (.inl ⟨w, rest, i, hw, hi, he⟩)
  · exact .inl ⟨fun g => by cases g <;> rfl, rfl⟩
  · refine .inr (.inr ⟨fun g => by cases g <;> rfl, ?_⟩)
    rcases hr with hr | ⟨w, hr⟩ <;> exact ⟨_, rest, hr, rfl⟩

/-- No command changes the build (R8). -/
theorem effect_params {i : Instr} {s t : State} (h : CommandEffect s i t) : t.params = s.params := by
  cases h with
  | rejected | configured => rfl
  | busError | loaded => exact setRegs_params ..
  | converted => exact writeOut_params ..
  | sampled => rfl

/-- The registers `r` of group g become `r'` by a conversion: the whole output file is converted from the group's own raw
file at its own range, and neither of the two changes (R124, R133). -/
structure OutConverted (g : Group) (p : Params) (r r' : GroupRegs) : Prop where
  out : r'.out = cvtTriple g p r.fs r.raw
  outv : r'.outv = true
  raw : r'.raw = r.raw
  fs : r'.fs = r.fs

/-- A command leaves the output file of a group as it is, or is a successful command that converts the group. -/
theorem effect_out {i : Instr} {s t : State} (h : CommandEffect s i t) (g : Group) :
    ((regs g t).out = (regs g s).out ∧ (regs g t).outv = (regs g s).outv) ∨
    (OutConverted g s.params (regs g s) (regs g t) ∧ t.err = .ok ∧ (i = convInstr g ∨ i = .smp)) := by
  cases h with
  | rejected _ c _ => rw [regs_finish]; exact .inl ⟨rfl, rfl⟩
  | busError =>
    rw [regs_finish]
    exact .inl ⟨regs_setRegs_field (·.out) (clearFresh_out _) g, regs_setRegs_field (·.outv) (clearFresh_outv _) g⟩
  | configured => left; cases g <;> exact ⟨rfl, rfl⟩
  | loaded =>
    rw [regs_finish, regs_inSampling]
    exact .inl ⟨regs_setRegs_field (·.out) (storeRaw_out ..) g, regs_setRegs_field (·.outv) (storeRaw_outv ..) g⟩
  | converted g' =>
    rw [regs_finish, regs_inSampling, writeOut, regs_setRegs_ite]
    split
    · subst g
      exact .inr ⟨⟨rfl, rfl, rfl, rfl⟩, rfl, .inl rfl⟩
    · exact .inl ⟨rfl, rfl⟩
  | sampled =>
    rw [regs_finish, regs_inSampling, regs_sample]
    exact .inr ⟨⟨rfl, rfl, rfl, rfl⟩, rfl, .inr rfl⟩

/-- A command leaves the raw file of a group as it is, or is a successful load of that group, which writes the axes decoded
from its own bytes (R55). -/
theorem effect_raw {i : Instr} {s t : State} (h : CommandEffect s i t) (g : Group) :
    (regs g t).raw = (regs g s).raw ∨
    ∃ d0 d1 d2 d3 d4 d5, i = loadInstr g 0#8 d0 d1 d2 d3 d4 d5 ∧ t.err = .ok ∧
      (regs g t).raw = decodeAxes d0 d1 d2 d3 d4 d5 := by
  cases h with
  | rejected _ c _ => rw [regs_finish]; exact .inl rfl
  | busError => rw [regs_finish]; exact .inl (regs_setRegs_field (·.raw) (clearFresh_raw _) g)
  | configured => left; cases g <;> rfl
  | loaded g' d0 d1 d2 d3 d4 d5 =>
    rw [regs_finish, regs_inSampling, regs_setRegs_ite]
    split
    · subst g
      exact .inr ⟨d0, d1, d2, d3, d4, d5, rfl, rfl, rfl⟩
    · exact .inl rfl
  | converted =>
    rw [regs_finish, regs_inSampling]
    exact .inl (regs_setRegs_field (·.raw) (storeOut_raw ..) g)
  | sampled => rw [regs_finish, regs_inSampling, regs_sample]; exact .inl rfl

/-- The pair decoder joins its two bytes, the first one above (R102). -/
theorem dec16_eq_append (h l : Byte) : dec16 h l = h ++ l := by
  rw [dec16, ← BitVec.setWidth_eq (h ++ l), BitVec.setWidth_append_eq_shiftLeft_setWidth_or]

theorem decodeAxes_eq_appends (d0 d1 d2 d3 d4 d5 : Byte) :
    decodeAxes d0 d1 d2 d3 d4 d5 = ⟨d0 ++ d1, d2 ++ d3, d4 ++ d5⟩ := by
  simp only [decodeAxes, dec16_eq_append]

/-- A written output file means a state past `UNINIT` (R29, R130). -/
theorem drv_ne_uninit_of_outv {s : State} (hi : Inv s) {g : Group} (ho : (regs g s).outv = true) : s.drv ≠ .uninit := by
  have hg := groupOk_of_inv hi g
  simp [hg.loaded_sampling (hg.outv_loaded ho)]

/-- A command keeps the written output files conversions at the active ranges: a written file that it does not write again
keeps its range, since only UNINIT takes a new one. -/
theorem effect_keeps_conversions {i : Instr} {s t : State} (hi : Inv s) (ho : OutputsAreConversions s)
    (h : CommandEffect s i t) : OutputsAreConversions t := by
  intro g hv
  rw [effect_params h]
  rcases effect_out h g with ⟨hout, houtv⟩ | ⟨hc, -, -⟩
  · rw [houtv] at hv
    rw [hout, effect_keeps_fs (drv_ne_uninit_of_outv hi hv) h]
    exact ho g hv
  · rw [hc.out, hc.fs]
    exact ⟨_, rfl⟩

/-- Settles O52: the files of each effect, the axes as joined bytes, and the conversions kept. -/
theorem stepKeepsWholeSamples : Obligations.StepKeepsWholeSamples := by
  intro s t h
  rcases step_block_cases h with ⟨hg, hp⟩ | ⟨w, rest, i, hw, hd, he⟩ | ⟨hg, e, rest, hs, hr⟩
  · refine ⟨fun g => .inl (by rw [hg]; exact ⟨rfl, rfl⟩), fun g => .inl (by rw [hg]), fun _ ho g => ?_⟩
    rw [hg, hp]
    exact ho g
  · refine ⟨fun g => ?_, fun g => ?_, fun hi ho => ?_⟩
    · have hout := effect_out he g
      rw [regs_withScript] at hout
      exact hout.imp_right fun ⟨hc, herr, hconv⟩ =>
        .inl ⟨hc.out, hc.outv, hc.raw, hc.fs, herr, w, rest, i, hw, hd, hconv⟩
    · have hraw := effect_raw he g
      rw [regs_withScript] at hraw
      refine hraw.imp_right fun ⟨d0, d1, d2, d3, d4, d5, hload, herr, haxes⟩ =>
        .inl ⟨w, rest, d0, d1, d2, d3, d4, d5, hw, hload ▸ hd, herr, ?_⟩
      rw [haxes, decodeAxes_eq_appends]
    · exact effect_keeps_conversions (s := { s with script := rest })
        ⟨hi.accel, hi.gyro, hi.sampling_loaded, hi.resp_err⟩ (fun g => by rw [regs_withScript]; exact ho g) he
  · refine ⟨fun g => .inr (.inr ?_), fun g => .inr (.inr ?_), fun _ _ g hv => ?_⟩
    · rw [hg]; exact ⟨rfl, rfl, e, rest, hs, hr⟩
    · rw [hg]; exact ⟨rfl, e, rest, hs, hr⟩
    · rw [hg] at hv; cases hv

end Sys2Proof.Proofs

namespace Sys2Proof.Proofs

/-!
The encoding statements (spec 30_encoding R70 to R82): a decoded word is rebuilt from its fields, the decoder's verdict by the
word as a number, what a load ignores, and the assembler as an encoder of well-formed commands.
-/

open Sys2Proof.Machine Sys2Proof.Laws

/-! ### A decoded word is the word of its command -/

/-- Settles O1, by the round trip of each format. -/
theorem decodeOfEncode : Obligations.DecodeOfEncode :=
  fun _ => decode_encode

/-- The eight bytes of format L tile the word (R74). -/
theorem encodeL_fields (w : Word) :
    encodeL (opcodeOf w) (bstOf w) (dataByte w 0) (dataByte w 1) (dataByte w 2) (dataByte w 3) (dataByte w 4)
      (dataByte w 5) = w := by
  simp (disch := rfl) only [encodeL, opcodeOf, bstOf, dataByte,
    BitVec.extractLsb'_append_extractLsb'_eq_extractLsb']
  exact BitVec.extractLsb'_eq_self

/-- An accepted word of format C (R72). -/
theorem encode_of_decodeC {w : Word} {i : Instr} (hop : opcodeOf w = 0x01#8) (h : decodeC w = .command i) :
    WellFormed i = true ∧ encode i = w := by
  unfold decodeC at h
  split_ifs at h with hzero
  obtain rfl := Verdict.command.inj h
  refine ⟨rfl, ?_⟩
  rw [encode, ← hzero, ← hop]
  simp (disch := rfl) only [opcodeOf, BitVec.extractLsb'_append_extractLsb'_eq_extractLsb']
  exact BitVec.extractLsb'_eq_self

/-- An accepted word of format N (R73). -/
theorem encode_of_decodeN {w : Word} {i j : Instr} {op : Byte} (hwf : WellFormed i = true) (hi : encode i = 0#56 ++ op)
    (hop : opcodeOf w = op) (h : decodeN w i = .command j) : WellFormed j = true ∧ encode j = w := by
  unfold decodeN at h
  split_ifs at h with hzero
  obtain rfl := Verdict.command.inj h
  refine ⟨hwf, ?_⟩
  rw [hi, ← hzero, ← hop]
  simp (disch := rfl) only [opcodeOf, BitVec.extractLsb'_append_extractLsb'_eq_extractLsb']
  exact BitVec.extractLsb'_eq_self

@[simp] theorem wellFormed_loadInstr (g : Group) (bst d0 d1 d2 d3 d4 d5 : Byte) :
    WellFormed (loadInstr g bst d0 d1 d2 d3 d4 d5) = busStatusOk bst := by
  cases g <;> rfl

/-- The opcode of a group's load (R71). -/
def loadOpcode : Group → Byte
  | .accel => 0x02#8
  | .gyro => 0x03#8

theorem encode_loadInstr (g : Group) (bst d0 d1 d2 d3 d4 d5 : Byte) :
    encode (loadInstr g bst d0 d1 d2 d3 d4 d5) = encodeL (loadOpcode g) bst d0 d1 d2 d3 d4 d5 := by
  cases g <;> rfl

/-- An accepted word of format L (R74). -/
theorem encode_of_decodeL {w : Word} {i : Instr} (g : Group) (hop : opcodeOf w = loadOpcode g)
    (h : decodeL w (loadInstr g) = .command i) : WellFormed i = true ∧ encode i = w := by
  unfold decodeL at h
  split_ifs at h with hb
  obtain rfl := Verdict.command.inj h
  rw [wellFormed_loadInstr, encode_loadInstr, ← hop]
  exact ⟨hb, encodeL_fields w⟩

/-- Settles O2: the opcode selects the format, and the fields of an accepted word tile it. -/
theorem encodeOfDecode : Obligations.EncodeOfDecode := by
  intro w i h
  unfold decode at h
  split_ifs at h with hcfg hlda hldg hcva hcvg hsmp
  · exact encode_of_decodeC hcfg h
  · exact encode_of_decodeL .accel hlda h
  · exact encode_of_decodeL .gyro hldg h
  · exact encode_of_decodeN rfl rfl hcva h
  · exact encode_of_decodeN rfl rfl hcvg h
  · exact encode_of_decodeN rfl rfl hsmp h

/-! ### The verdict by the word as a number -/

/-- A field as the digits of the word's number. -/
theorem extractLsb'_eq_ofNat (w : Word) (start len : Nat) :
    w.extractLsb' start len = BitVec.ofNat len (w.toNat / 2 ^ start) := by
  rw [← Nat.shiftRight_eq_div_pow]
  rfl

theorem opcodeOf_eq_iff (w : Word) (op : Byte) : opcodeOf w = op ↔ w.toNat % 256 = op.toNat := by
  rw [BitVec.toNat_eq, opcodeOf, BitVec.extractLsb'_toNat]
  rfl

/-- A field that reaches up to bit 63 is 0 when no bit from its start on is set. -/
theorem extractLsb'_eq_zero_iff (w : Word) {start len : Nat} (hlen : start + len = 64) :
    w.extractLsb' start len = 0#len ↔ w.toNat / 2 ^ start = 0 := by
  have hlt : w.toNat / 2 ^ start < 2 ^ len :=
    Nat.div_lt_of_lt_mul (by rw [← Nat.pow_add, hlen]; exact w.isLt)
  rw [extractLsb'_eq_ofNat, BitVec.toNat_eq, BitVec.toNat_ofNat, Nat.mod_eq_of_lt hlt]
  rfl

theorem busStatusOk_bstOf (w : Word) : busStatusOk (bstOf w) = true ↔ w.toNat / 2 ^ 8 % 256 ≤ 2 := by
  rw [busStatusOk, bstOf, extractLsb'_eq_ofNat, BitVec.toNat_ofNat, decide_eq_true_iff]

/-- The opcode map on the word as a number (R71). -/
theorem decode_eq_ite (w : Word) : decode w =
    if w.toNat % 256 = 1 then decodeC w
    else if w.toNat % 256 = 2 then decodeL w .lda
    else if w.toNat % 256 = 3 then decodeL w .ldg
    else if w.toNat % 256 = 4 then decodeN w .cva
    else if w.toNat % 256 = 5 then decodeN w .cvg
    else if w.toNat % 256 = 6 then decodeN w .smp
    else .illegal .reservedOpcode := by
  simp only [decode, opcodeOf_eq_iff]
  rfl

/-- Format C on the word as a number (R72). -/
theorem decodeC_eq_ite (w : Word) : decodeC w =
    if w.toNat / 2 ^ 12 = 0 then
      .command (.cfg (BitVec.ofNat 2 (w.toNat / 2 ^ 8)) (BitVec.ofNat 2 (w.toNat / 2 ^ 10)))
    else .illegal .reservedBits := by
  simp only [decodeC, extractLsb'_eq_zero_iff w (show 12 + 52 = 64 from rfl)]
  simp only [extractLsb'_eq_ofNat]

/-- Format N on the word as a number (R73). -/
theorem decodeN_eq_ite (w : Word) (i : Instr) :
    decodeN w i = if w.toNat / 2 ^ 8 = 0 then .command i else .illegal .reservedBits := by
  simp only [decodeN, extractLsb'_eq_zero_iff w (show 8 + 56 = 64 from rfl)]

/-- Format L on the word as a number (R74). -/
theorem decodeL_eq_ite (w : Word) (mk : Byte → Byte → Byte → Byte → Byte → Byte → Byte → Instr) : decodeL w mk =
    if w.toNat / 2 ^ 8 % 256 ≤ 2 then
      .command (mk (BitVec.ofNat 8 (w.toNat / 2 ^ 8)) (BitVec.ofNat 8 (w.toNat / 2 ^ 16))
        (BitVec.ofNat 8 (w.toNat / 2 ^ 24)) (BitVec.ofNat 8 (w.toNat / 2 ^ 32)) (BitVec.ofNat 8 (w.toNat / 2 ^ 40))
        (BitVec.ofNat 8 (w.toNat / 2 ^ 48)) (BitVec.ofNat 8 (w.toNat / 2 ^ 56)))
    else .illegal .reservedBusStatus := by
  simp only [decodeL, busStatusOk_bstOf]
  simp only [bstOf, dataByte, extractLsb'_eq_ofNat]

/-! ### The reserved encodings -/

/-- The number of a reserved encoding (R78). -/
def IsReserved (n : Nat) : Prop :=
  n % 256 = 0 ∨ 6 < n % 256 ∨ (n % 256 = 1 ∧ n / 2 ^ 12 ≠ 0) ∨
    ((n % 256 = 2 ∨ n % 256 = 3) ∧ 2 < n / 2 ^ 8 % 256) ∨
    ((n % 256 = 4 ∨ n % 256 = 5 ∨ n % 256 = 6) ∧ n / 2 ^ 8 ≠ 0)

/-- A format answers `ILLEGAL_COMMAND` where its test fails. -/
theorem exists_illegal_ite_iff {c : Prop} [Decidable c] (i : Instr) (why : Illegal) :
    (∃ why', (if c then .command i else .illegal why : Verdict) = .illegal why') ↔ ¬ c := by
  split_ifs with hc <;> simp [hc]

/-- The decoder refuses the reserved encodings and no other word. -/
theorem exists_illegal_iff (w : Word) : (∃ why, decode w = .illegal why) ↔ IsReserved w.toNat := by
  rw [decode_eq_ite, IsReserved]
  split_ifs with hcfg hlda hldg hcva hcvg hsmp
  · rw [decodeC_eq_ite, exists_illegal_ite_iff]; omega
  · rw [decodeL_eq_ite, exists_illegal_ite_iff]; omega
  · rw [decodeL_eq_ite, exists_illegal_ite_iff]; omega
  · rw [decodeN_eq_ite, exists_illegal_ite_iff]; omega
  · rw [decodeN_eq_ite, exists_illegal_ite_iff]; omega
  · rw [decodeN_eq_ite, exists_illegal_ite_iff]; omega
  · refine iff_of_true ⟨_, rfl⟩ ?_
    omega

theorem cmdIssue_of_illegal {w : Word} {why : Illegal} (h : decode w = .illegal why) (s : State) :
    cmdIssue w s = raise .illegalCommand s := by
  simp only [cmdIssue, h]

/-- Settles O3: the opcode selects the format, whose test decides; a word no format accepts is reserved. -/
theorem decoderVerdict : Obligations.DecoderVerdict := by
  rintro w _ rfl
  refine ⟨fun hop h => ?_, fun hop h => ?_, fun hop h => ?_, fun hop h => ?_, fun hop h => ?_, fun hop h => ?_,
    fun h => ?_⟩
  · rw [decode_eq_ite, hop]; exact (decodeC_eq_ite w).trans (if_pos h)
  · rw [decode_eq_ite, hop]; exact (decodeL_eq_ite w _).trans (if_pos h)
  · rw [decode_eq_ite, hop]; exact (decodeL_eq_ite w _).trans (if_pos h)
  · rw [decode_eq_ite, hop]; exact (decodeN_eq_ite w _).trans (if_pos h)
  · rw [decode_eq_ite, hop]; exact (decodeN_eq_ite w _).trans (if_pos h)
  · rw [decode_eq_ite, hop]; exact (decodeN_eq_ite w _).trans (if_pos h)
  · obtain ⟨why, hwhy⟩ := (exists_illegal_iff w).2 (by unfold IsReserved; omega)
    exact ⟨⟨why, hwhy⟩, cmdIssue_of_illegal hwhy⟩

/-- Settles O5: the reserved numbers, and a step that issues one of them. -/
theorem reservedWordWritesOnlyErr : Obligations.ReservedWordWritesOnlyErr := by
  rintro w _ _ rfl rfl
  refine ⟨?_, fun s rest hs ⟨why, hwhy⟩ => (step_of_script hs).trans (cmdIssue_of_illegal hwhy _)⟩
  rw [exists_illegal_iff, IsReserved]
  omega

/-! ### The bytes of a failed load -/

theorem exec_loadInstr (g : Group) (bst d0 d1 d2 d3 d4 d5 : Byte) (s : State) :
    exec (loadInstr g bst d0 d1 d2 d3 d4 d5) s = loadGroup g bst (decodeAxes d0 d1 d2 d3 d4 d5) s := by
  cases g <;> rfl

/-- A load reads its axes under bus status 0 only: each of its errors comes before (R75, R103). -/
theorem loadGroup_ignores_axes (g : Group) {bst : Byte} (hb : bst ≠ 0#8) (v v' : Triple 16) (s : State) :
    loadGroup g bst v s = loadGroup g bst v' s := by
  unfold loadGroup
  split_ifs with hres huninit haddr hread
  iterate 4 rfl
  exact absurd (busStatus_zero (by simpa using hres) haddr hread) hb

/-- Settles O33: the load of either group ignores its axes. -/
theorem failedLoadIgnoresBytes : Obligations.FailedLoadIgnoresBytes := by
  intro g s bst d0 d1 d2 d3 d4 d5 e0 e1 e2 e3 e4 e5 hb
  rw [exec_loadInstr, exec_loadInstr]
  exact loadGroup_ignores_axes g hb _ _ s

/-! ### A count is read back from its two bytes -/

theorem s16_eq_toInt (v : Half) : s16 v = v.toInt := by
  rw [BitVec.toInt_eq_msb_cond, BitVec.msb_eq_getLsbD_last]
  rfl

theorem u16_eq_ofInt (n : Int) : u16 n = BitVec.ofInt 16 n := by
  apply BitVec.eq_of_toNat_eq
  rw [u16, BitVec.toNat_ofNat, BitVec.toNat_ofInt]
  omega

/-- The two readings of R13 are inverse on the counts. -/
theorem s16_u16 {n : Int} (h : IsCount n) : s16 (u16 n) = n := by
  obtain ⟨hlo, hhi⟩ := h
  rw [s16_eq_toInt, u16_eq_ofInt]
  exact BitVec.toInt_ofInt_eq_self (by decide) hlo (by omega)

/-- The pair decoder joins the two halves of a pattern (R102). -/
theorem dec16_hi8_lo8 (v : Half) : dec16 (hi8 v) (lo8 v) = v := by
  simp (disch := rfl) only [dec16_eq_append, hi8, lo8, BitVec.extractLsb'_append_extractLsb'_eq_extractLsb']
  exact BitVec.extractLsb'_eq_self

theorem s16_dec16_u16 {n : Int} (h : IsCount n) : s16 (dec16 (hi8 (u16 n)) (lo8 (u16 n))) = n := by
  rw [dec16_hi8_lo8, s16_u16 h]

/-! ### What the assembler accepts -/

theorem inRange_eq_some {lo hi n m : Int} : inRange lo hi n = some m ↔ (lo ≤ n ∧ n ≤ hi) ∧ n = m := by
  simp [inRange]

/-- An unsigned field holds the number written. -/
theorem unsignedField_eq_some {w : Nat} {n : Int} {b : BitVec w} : unsignedField w n = some b ↔ (b.toNat : Int) = n := by
  have hb : (b.toNat : Int) < 2 ^ w := by exact_mod_cast b.isLt
  simp only [unsignedField, Option.map_eq_some_iff, inRange_eq_some]
  constructor
  · rintro ⟨_, ⟨⟨hlo, hhi⟩, rfl⟩, rfl⟩
    have hlt : n.toNat < 2 ^ w := by zify; omega
    rw [BitVec.toNat_ofNat, Nat.mod_eq_of_lt hlt]
    omega
  · rintro rfl
    exact ⟨_, ⟨⟨by omega, by omega⟩, rfl⟩, by simp⟩

/-- The numbers a field of `w` bits can hold. -/
theorem exists_toNat_eq_iff (w : Nat) (n : Int) : (∃ b : BitVec w, (b.toNat : Int) = n) ↔ 0 ≤ n ∧ n < 2 ^ w := by
  constructor
  · rintro ⟨b, rfl⟩
    exact ⟨by omega, by exact_mod_cast b.isLt⟩
  · rintro ⟨hlo, hhi⟩
    lift n to Nat using hlo
    exact ⟨BitVec.ofNat w n, by rw [BitVec.toNat_ofNat, Nat.mod_eq_of_lt (by exact_mod_cast hhi)]⟩

theorem assemble_cfg {a g : Int} {w : Word} : assemble (.cfg a g) = some w ↔
    ∃ afs gfs : BitVec 2, (afs.toNat : Int) = a ∧ (gfs.toNat : Int) = g ∧ w = encode (.cfg afs gfs) := by
  simp [assemble, Option.bind_eq_some_iff, unsignedField_eq_some, eq_comm (a := w)]

theorem assemble_load {grp : Group} {d0 d1 d2 d3 d4 d5 : Int} {w : Word} :
    assemble (.load grp d0 d1 d2 d3 d4 d5) = some w ↔
    ∃ b0 : Byte, (b0.toNat : Int) = d0 ∧ ∃ b1 : Byte, (b1.toNat : Int) = d1 ∧ ∃ b2 : Byte, (b2.toNat : Int) = d2 ∧
      ∃ b3 : Byte, (b3.toNat : Int) = d3 ∧ ∃ b4 : Byte, (b4.toNat : Int) = d4 ∧ ∃ b5 : Byte, (b5.toNat : Int) = d5 ∧
        w = encode (loadInstr grp 0#8 b0 b1 b2 b3 b4 b5) := by
  simp [assemble, Option.bind_eq_some_iff, unsignedField_eq_some, eq_comm (a := w)]

theorem assemble_loadFailed {grp : Group} {b : Int} {w : Word} : assemble (.loadFailed grp b) = some w ↔
    (b = 1 ∨ b = 2) ∧ w = encode (loadInstr grp (BitVec.ofNat 8 b.toNat) 0#8 0#8 0#8 0#8 0#8 0#8) := by
  have hb : 1 ≤ b ∧ b ≤ 2 ↔ b = 1 ∨ b = 2 := by omega
  simp [assemble, Option.bind_eq_some_iff, inRange_eq_some, eq_comm (a := w), hb]

theorem assemble_loadI16 {grp : Group} {x y z : Int} {w : Word} : assemble (.loadI16 grp x y z) = some w ↔
    (IsCount x ∧ IsCount y ∧ IsCount z) ∧ w = encode (loadInstr grp 0#8 (hi8 (u16 x)) (lo8 (u16 x)) (hi8 (u16 y))
      (lo8 (u16 y)) (hi8 (u16 z)) (lo8 (u16 z))) := by
  simp [assemble, Option.bind_eq_some_iff, inRange_eq_some, eq_comm (a := w), IsCount, and_assoc]

theorem assemble_word {v : Int} {w : Word} : assemble (.word v) = some w ↔ (w.toNat : Int) = v :=
  unsignedField_eq_some

/-- A line that is no literal word gives the word of a well-formed command (R80). -/
theorem assemble_wellFormed {l : AsmLine} {w : Word} (h : assemble l = some w) (hl : ∀ v, l ≠ .word v) :
    ∃ i, WellFormed i = true ∧ w = encode i := by
  cases l with
  | cfg | init =>
    obtain ⟨_, _, -, -, rfl⟩ := assemble_cfg.1 h
    exact ⟨_, rfl, rfl⟩
  | load =>
    obtain ⟨_, -, _, -, _, -, _, -, _, -, _, -, rfl⟩ := assemble_load.1 h
    exact ⟨_, wellFormed_loadInstr .., rfl⟩
  | loadFailed =>
    obtain ⟨rfl | rfl, rfl⟩ := assemble_loadFailed.1 h
    · exact ⟨_, wellFormed_loadInstr .., rfl⟩
    · exact ⟨_, wellFormed_loadInstr .., rfl⟩
  | loadI16 =>
    obtain ⟨-, rfl⟩ := assemble_loadI16.1 h
    exact ⟨_, wellFormed_loadInstr .., rfl⟩
  | cva | cvg | smp =>
    obtain rfl := Option.some.inj h
    exact ⟨_, rfl, rfl⟩
  | word v => exact absurd rfl (hl v)

/-- A load with a legal bus status is read back from its word, whatever its bytes. -/
theorem decode_encode_loadInstr (g : Group) {bst : Byte} (hb : busStatusOk bst = true) (d0 d1 d2 d3 d4 d5 : Byte) :
    decode (encode (loadInstr g bst d0 d1 d2 d3 d4 d5)) = .command (loadInstr g bst d0 d1 d2 d3 d4 d5) :=
  decode_encode ((wellFormed_loadInstr ..).trans hb)

/-- What is refused is what gives no word. -/
theorem refuses_iff {o : Option Word} {P : Prop} (h : (∃ w, o = some w) ↔ P) : o = none ↔ ¬ P := by
  rw [← h, ← Option.isSome_iff_exists, Option.not_isSome_iff_eq_none]

/-- The FS codes `cfg` accepts (R80). -/
theorem assembles_cfg (a g : Int) : (∃ w, assemble (.cfg a g) = some w) ↔ 0 ≤ a ∧ a ≤ 3 ∧ 0 ≤ g ∧ g ≤ 3 := by
  have hcode (n : Int) : (∃ fs : BitVec 2, (fs.toNat : Int) = n) ↔ 0 ≤ n ∧ n ≤ 3 := by
    rw [exists_toNat_eq_iff]
    omega
  rw [← and_assoc, ← hcode, ← hcode]
  constructor
  · rintro ⟨w, h⟩
    obtain ⟨afs, gfs, ha, hg, -⟩ := assemble_cfg.1 h
    exact ⟨⟨afs, ha⟩, ⟨gfs, hg⟩⟩
  · rintro ⟨⟨afs, ha⟩, ⟨gfs, hg⟩⟩
    exact ⟨_, assemble_cfg.2 ⟨afs, gfs, ha, hg, rfl⟩⟩

/-- The bytes `lda` and `ldg` accept (R80). -/
theorem assembles_load (grp : Group) (d0 d1 d2 d3 d4 d5 : Int) :
    (∃ w, assemble (.load grp d0 d1 d2 d3 d4 d5) = some w) ↔ ∀ d ∈ [d0, d1, d2, d3, d4, d5], 0 ≤ d ∧ d ≤ 255 := by
  have hbyte (d : Int) : (∃ b : Byte, (b.toNat : Int) = d) ↔ 0 ≤ d ∧ d ≤ 255 := by
    rw [exists_toNat_eq_iff]
    omega
  simp only [← hbyte, List.forall_mem_cons, List.not_mem_nil, false_imp_iff, implies_true, and_true]
  constructor
  · rintro ⟨w, h⟩
    obtain ⟨b0, h0, b1, h1, b2, h2, b3, h3, b4, h4, b5, h5, -⟩ := assemble_load.1 h
    exact ⟨⟨b0, h0⟩, ⟨b1, h1⟩, ⟨b2, h2⟩, ⟨b3, h3⟩, ⟨b4, h4⟩, ⟨b5, h5⟩⟩
  · rintro ⟨⟨b0, h0⟩, ⟨b1, h1⟩, ⟨b2, h2⟩, ⟨b3, h3⟩, ⟨b4, h4⟩, ⟨b5, h5⟩⟩
    exact ⟨_, assemble_load.2 ⟨b0, h0, b1, h1, b2, h2, b3, h3, b4, h4, b5, h5, rfl⟩⟩

/-- Settles O59: the refusals by the ranges, and each line's command read back from its word. -/
theorem assemblerMakesCommands : Obligations.AssemblerMakesCommands := by
  refine ⟨fun l w h hl => ?_, fun a g => refuses_iff (assembles_cfg a g), fun _ _ => rfl,
    fun grp d0 d1 d2 d3 d4 d5 => refuses_iff (assembles_load ..), fun grp b => refuses_iff ?_,
    fun grp x y z => refuses_iff ?_, fun v => refuses_iff ?_, fun a g w h => ?_, fun grp d0 d1 d2 d3 d4 d5 w h => ?_,
    fun grp b w h => ?_, fun grp x y z w h => ?_, ⟨_, rfl, decode_encode rfl⟩, ⟨_, rfl, decode_encode rfl⟩,
    ⟨_, rfl, decode_encode rfl⟩, fun v w h => assemble_word.1 h⟩
  · obtain ⟨i, hi, rfl⟩ := assemble_wellFormed h hl
    exact ⟨i, hi, decode_encode hi⟩
  · simp only [assemble_loadFailed, exists_and_left, exists_eq, and_true]
  · simp only [assemble_loadI16, exists_and_left, exists_eq, and_true]
  · simp only [assemble_word]
    exact exists_toNat_eq_iff 64 v
  · obtain ⟨afs, gfs, ha, hg, rfl⟩ := assemble_cfg.1 h
    exact ⟨afs, gfs, decode_encode rfl, ha, hg⟩
  · obtain ⟨b0, h0, b1, h1, b2, h2, b3, h3, b4, h4, b5, h5, rfl⟩ := assemble_load.1 h
    exact ⟨b0, b1, b2, b3, b4, b5, decode_encode_loadInstr grp rfl .., h0, h1, h2, h3, h4, h5⟩
  · obtain ⟨rfl | rfl, rfl⟩ := assemble_loadFailed.1 h
    · exact ⟨_, decode_encode_loadInstr grp rfl .., rfl⟩
    · exact ⟨_, decode_encode_loadInstr grp rfl .., rfl⟩
  · obtain ⟨⟨hx, hy, hz⟩, rfl⟩ := assemble_loadI16.1 h
    exact ⟨_, _, _, _, _, _, decode_encode_loadInstr grp rfl .., s16_dec16_u16 hx, s16_dec16_u16 hy, s16_dec16_u16 hz⟩

/-! ### Counts through the block -/

/-- Past `UNINIT` a load whose bus status is 0 stores its axes (R100). -/
theorem loadGroup_good (g : Group) (v : Triple 16) {s : State} (hs : s.drv ≠ .uninit) :
    loadGroup g 0#8 v s = .next (finish .ok (inSampling (setRegs g (storeRaw v (regs g s)) s))) := by
  rw [loadGroup, if_neg (by decide), if_neg hs, if_neg (by decide), if_neg (by decide), complete, setRegs_drv,
    enterSampling_of_ne hs]
  rfl

/-- What the port answers to the word of such a load. -/
theorem cmdIssue_good_load (g : Group) (d0 d1 d2 d3 d4 d5 : Byte) {s : State} (hs : s.drv ≠ .uninit) :
    cmdIssue (encode (loadInstr g 0#8 d0 d1 d2 d3 d4 d5)) s =
      .next (finish .ok (inSampling (setRegs g (storeRaw (decodeAxes d0 d1 d2 d3 d4 d5) (regs g s)) s))) := by
  rw [cmdIssue_of_decode (decode_encode_loadInstr g rfl ..), exec_loadInstr, loadGroup_good g _ hs]

/-- Settles O60: the assembled load succeeds and stores the patterns of the counts. -/
theorem countsRoundTrip : Obligations.CountsRoundTrip := by
  intro grp x y z s hx hy hz hs
  refine ⟨_, _, assemble_loadI16.2 ⟨⟨hx, hy, hz⟩, rfl⟩, cmdIssue_good_load grp _ _ _ _ _ _ hs, finish_err .., ?_⟩
  rw [regs_finish, regs_inSampling, regs_setRegs, storeRaw_raw]
  exact ⟨s16_dec16_u16 hx, s16_dec16_u16 hy, s16_dec16_u16 hz⟩

/-! ### The worked encodings -/

/-- Settles O4, by evaluation of the decoder and the assembler on the words and lines of R82. -/
theorem workedEncodings : Obligations.WorkedEncodings := by
  unfold Obligations.WorkedEncodings
  decide

end Sys2Proof.Proofs

namespace Sys2Proof.Proofs

/-!
The configuration statements (spec 40_config R90 to R92): what CFG answers in `UNINIT` and past it, and the host's
`initialize()` over it.
-/

open Sys2Proof.Machine Sys2Proof.Laws

/-! ### CFG by `STATE` -/

/-- What a successful CFG writes but for its result code (R90). -/
def withRanges (afs gfs : BitVec 2) (s : State) : State :=
  { s with drv := .configured, accel := { s.accel with fs := afs }, gyro := { s.gyro with fs := gfs } }

theorem exec_cfg_uninit (afs gfs : BitVec 2) {s : State} (hs : s.drv = .uninit) :
    exec (.cfg afs gfs) s = .next (finish .ok (withRanges afs gfs s)) :=
  if_pos hs

theorem exec_cfg_locked (afs gfs : BitVec 2) {s : State} (hs : s.drv ≠ .uninit) :
    exec (.cfg afs gfs) s = .next (finish .configLocked s) :=
  if_neg hs

/-- What the port answers to the word of a CFG in `UNINIT`. -/
theorem cmdIssue_cfg_uninit (afs gfs : BitVec 2) {s : State} (hs : s.drv = .uninit) :
    cmdIssue (encode (.cfg afs gfs)) s = .next (finish .ok (withRanges afs gfs s)) :=
  (cmdIssue_of_decode (decode_encode rfl) s).trans (exec_cfg_uninit afs gfs hs)

/-- A word of CFG's opcode with a bit of 63:12 set is no command (R77). -/
theorem cmdIssue_cfg_reserved {w : Word} (hop : w.toNat % 256 = 1) (hbits : w.toNat / 2 ^ 12 ≠ 0) (s : State) :
    cmdIssue w s = .next (finish .illegalCommand s) := by
  have hreserved : IsReserved w.toNat := .inr (.inr (.inl ⟨hop, hbits⟩))
  obtain ⟨_, hwhy⟩ := (exists_illegal_iff w).2 hreserved
  exact cmdIssue_of_illegal hwhy s

theorem flags_of_inv_uninit {s : State} (hi : Inv s) (hs : s.drv = .uninit) (g : Group) :
    (regs g s).loaded = false ∧ (regs g s).fresh = false ∧ (regs g s).outv = false :=
  groupOk_uninit_flags (hs ▸ groupOk_of_inv hi g)

/-- Settles O18: CFG by `STATE`, the reserved words, the flags of the invariant, and the example as one CFG in `UNINIT`. -/
theorem cfgMeaning : Obligations.CfgMeaning := by
  refine ⟨fun s afs gfs hs => exec_cfg_uninit afs gfs hs, fun s afs gfs hs => exec_cfg_locked afs gfs hs,
    fun s w hop hbits => cmdIssue_cfg_reserved hop hbits s, fun s g hi hs => flags_of_inv_uninit hi hs g,
    fun p script hu hm => ?_⟩
  have hword : encode (.cfg 3#2 0#2) = 0x0000000000000301#64 := by decide
  refine ⟨finish .ok (withRanges 3#2 0#2 (bootState p script)), ?_, rfl, rfl, rfl, rfl, ?_, ?_⟩
  · exact hword ▸ cmdIssue_cfg_uninit 3#2 0#2 rfl
  · exact BitVec.eq_of_toNat_eq (statusWord_toNat _)
  · refine BitVec.eq_of_toNat_eq ((configWord_toNat _).trans ?_)
    simp [withRanges, bootState, hu, hm, unitBit, modeBit]

/-! ### The host's `initialize()` -/

/-- The first failing write aborts `initialize()` with nothing issued (R91). -/
theorem driverInit_failed {w1 w2 w3 : Bool} (hw : (w1 && w2 && w3) = false) (afs gfs : BitVec 2) (s : State) :
    driverInit w1 w2 w3 afs gfs s =
      (s, .configWriteFailed (if w1 = false then 1 else if w2 = false then 2 else 3)) := by
  unfold driverInit
  split_ifs with h1 h2 h3
  · rfl
  · rfl
  · rfl
  · simp [h1, h2, h3] at hw

/-- After three successful writes in `UNINIT`, `initialize()` ends as its CFG does (R91). -/
theorem driverInit_succeeded (afs gfs : BitVec 2) {s : State} (hs : s.drv = .uninit) :
    driverInit true true true afs gfs s = (finish .ok (withRanges afs gfs s), .ok) := by
  have hissue : issue (encode (.cfg afs gfs)) s = finish .ok (withRanges afs gfs s) :=
    issue_eq (cmdIssue_cfg_uninit afs gfs hs)
  simp [driverInit, hissue]

/-- Settles O58: the failed call leaves the block as it was, in `UNINIT`, where the later call succeeds. -/
theorem initRecovers : Obligations.InitRecovers := by
  intro w1 w2 w3 s t o afs gfs afs' gfs' hs hw h
  obtain ⟨rfl, rfl⟩ := Prod.mk.inj ((driverInit_failed hw afs gfs s).symm.trans h)
  exact ⟨rfl, rfl, _, driverInit_succeeded afs' gfs' hs, rfl, rfl, rfl⟩

end Sys2Proof.Proofs

namespace Sys2Proof.Proofs

/-!
The decoder statements (spec 41_decode R100 to R104): what a load answers by bus status and `STATE`, a run after a failed load,
the isolation of the groups, and the pair decoder as a concatenation of bytes.
-/

open Sys2Proof.Machine Sys2Proof.Laws

/-! ### What a load answers -/

theorem byte_eq_of_toNat {b : Byte} {n : Nat} (h : b.toNat = n) : b = BitVec.ofNat 8 n := by
  rw [← h, BitVec.ofNat_toNat, BitVec.setWidth_eq]

section
variable (g : Group) {bst d0 d1 d2 d3 d4 d5 : Byte} {s : State}

/-- Past `UNINIT` a load whose bus status is 0 stores the three pairs, the first byte of each above (R100, R101). -/
theorem exec_load_good (hb : bst.toNat = 0) (hs : s.drv ≠ .uninit) :
    exec (loadInstr g bst d0 d1 d2 d3 d4 d5) s =
      .next (finish .ok (inSampling (setRegs g (storeRaw ⟨d0 ++ d1, d2 ++ d3, d4 ++ d5⟩ (regs g s)) s))) := by
  rw [byte_eq_of_toNat hb, exec_loadInstr, loadGroup_good g _ hs, decodeAxes_eq_appends]

/-- Past `UNINIT` a load whose bus status names a failed phase ends in that bus error and only clears `FRESH` (R103). -/
theorem exec_load_failed {c : ErrCode} (hs : s.drv ≠ .uninit)
    (hc : bst.toNat = 1 ∧ c = .busAddr ∨ bst.toNat = 2 ∧ c = .busRead) :
    exec (loadInstr g bst d0 d1 d2 d3 d4 d5) s = .next (finish c (setRegs g (clearFresh (regs g s)) s)) := by
  rw [exec_loadInstr, loadGroup]
  rcases hc with ⟨hb, rfl⟩ | ⟨hb, rfl⟩
  · rw [byte_eq_of_toNat hb, if_neg (by decide), if_neg hs, if_pos rfl, raise_eq]
  · rw [byte_eq_of_toNat hb, if_neg (by decide), if_neg hs, if_neg (by decide), if_pos rfl, raise_eq]

/-- In `UNINIT` a load is rejected under each legal bus status: a bus error is not reported there (R100, R156). -/
theorem exec_load_uninit (hb : bst.toNat ≤ 2) (hs : s.drv = .uninit) :
    exec (loadInstr g bst d0 d1 d2 d3 d4 d5) s = .next (finish .notInitialized s) := by
  have hok : busStatusOk bst = true := decide_eq_true hb
  rw [exec_loadInstr, loadGroup, if_neg (by simp [hok]), if_pos hs, raise_eq]

end

/-- A word of a load's opcode with a bus status above 2 is no command (R77). -/
theorem cmdIssue_load_reserved (g : Group) {w : Word} (hop : w.toNat % 256 = (loadOpcode g).toNat)
    (hb : 2 < w.toNat / 2 ^ 8 % 256) (s : State) : cmdIssue w s = .next (finish .illegalCommand s) := by
  have hload : w.toNat % 256 = 2 ∨ w.toNat % 256 = 3 := by
    cases g
    · exact .inl hop
    · exact .inr hop
  have hreserved : IsReserved w.toNat := .inr (.inr (.inr (.inl ⟨hload, hb⟩)))
  obtain ⟨_, hwhy⟩ := (exists_illegal_iff w).2 hreserved
  exact cmdIssue_of_illegal hwhy s

/-- In `UNINIT` no group is fresh (R100). -/
theorem not_fresh_of_inv_uninit {s : State} (hi : Inv s) (hs : s.drv = .uninit) (g : Group) :
    (regs g s).fresh = false := by
  obtain ⟨-, hfresh, -⟩ := flags_of_inv_uninit hi hs g
  exact hfresh

theorem regRead_raw_accel (s : State) : regRead s 8#8 = packRaw s.accel.raw :=
  rfl

/-- Settles O19, by the load of group A; the example is the word of one good load. -/
theorem ldaMeaning : Obligations.LdaMeaning := by
  intro s bst d0 d1 d2 d3 d4 d5
  refine ⟨exec_load_good .accel, fun hb hs => exec_load_failed .accel hs (.inl ⟨hb, rfl⟩),
    fun hb hs => exec_load_failed .accel hs (.inr ⟨hb, rfl⟩), exec_load_uninit .accel,
    fun w hop hb => cmdIssue_load_reserved .accel hop hb s, fun hi hs => not_fresh_of_inv_uninit hi hs .accel,
    fun hs => ?_⟩
  have hword : encode (loadInstr .accel 0#8 0x20#8 0#8 0#8 0#8 0xE0#8 0#8) = 0x00E0000000200002#64 := by decide
  have haxes : decodeAxes 0x20#8 0#8 0#8 0#8 0xE0#8 0#8 = ⟨0x2000#16, 0x0000#16, 0xE000#16⟩ := by decide
  have hpack : packRaw ⟨0x2000#16, 0x0000#16, 0xE000#16⟩ = 0x0000E00000002000#64 := by decide
  have hissue := cmdIssue_good_load .accel 0x20#8 0#8 0#8 0#8 0xE0#8 0#8 (s := s) (by simp [hs])
  rw [hword, haxes] at hissue
  exact ⟨_, hissue, rfl, rfl, rfl, rfl, rfl, rfl, rfl, (regRead_raw_accel _).trans hpack⟩

/-- Settles O20, by the load of group G; the example is the word of one good load. -/
theorem ldgMeaning : Obligations.LdgMeaning := by
  intro s bst d0 d1 d2 d3 d4 d5
  refine ⟨exec_load_good .gyro, fun hb hs => exec_load_failed .gyro hs (.inl ⟨hb, rfl⟩),
    fun hb hs => exec_load_failed .gyro hs (.inr ⟨hb, rfl⟩), exec_load_uninit .gyro,
    fun w hop hb => cmdIssue_load_reserved .gyro hop hb s, fun hi hs => not_fresh_of_inv_uninit hi hs .gyro,
    fun hs => ?_⟩
  have hword : encode (loadInstr .gyro 0#8 0x00#8 0x83#8 0xFF#8 0x7D#8 0x80#8 0x00#8) = 0x00807DFF83000003#64 := by
    decide
  have haxes : decodeAxes 0x00#8 0x83#8 0xFF#8 0x7D#8 0x80#8 0x00#8 = ⟨0x0083#16, 0xFF7D#16, 0x8000#16⟩ := by decide
  have hissue := cmdIssue_good_load .gyro 0x00#8 0x83#8 0xFF#8 0x7D#8 0x80#8 0x00#8 (s := s) (by simp [hs])
  rw [hword, haxes] at hissue
  exact ⟨_, hissue, rfl, rfl, rfl, rfl, rfl⟩

/-! ### After a failed load -/

/-- `r'` still holds the load that `r` holds: `RAW` and `LOADED` are the same; `FRESH` need not be (R103). -/
structure LoadKept (r r' : GroupRegs) : Prop where
  raw : r'.raw = r.raw
  loaded : r'.loaded = r.loaded

theorem isGoodLoad_loadInstr (g : Group) (d0 d1 d2 d3 d4 d5 : Byte) :
    isGoodLoad g (loadInstr g 0#8 d0 d1 d2 d3 d4 d5) = true := by
  cases g <;> rfl

theorem loadsGroup_of_decode {w : Word} {i : Instr} (h : decode w = .command i) (g : Group) :
    loadsGroup g (.cmd w) = isGoodLoad g i := by
  simp only [loadsGroup, h]

/-- What a write to one group keeps of its load, it keeps of both groups' loads. -/
theorem loadKept_setRegs {g : Group} {r : GroupRegs} {s : State} (hr : LoadKept (regs g s) r) (g' : Group) :
    LoadKept (regs g' s) (regs g' (setRegs g r s)) :=
  ⟨regs_setRegs_field (·.raw) hr.raw g', regs_setRegs_field (·.loaded) hr.loaded g'⟩

theorem loadKept_self (r : GroupRegs) : LoadKept r r :=
  ⟨rfl, rfl⟩

theorem loadKept_clearFresh (r : GroupRegs) : LoadKept r (clearFresh r) :=
  ⟨rfl, rfl⟩

theorem loadKept_storeOut (t : Triple 64) (r : GroupRegs) : LoadKept r (storeOut t r) :=
  ⟨rfl, rfl⟩

theorem LoadKept.trans {r r' r'' : GroupRegs} (h : LoadKept r r') (h' : LoadKept r' r'') : LoadKept r r'' :=
  ⟨h'.raw.trans h.raw, h'.loaded.trans h.loaded⟩

/-- Only a successful load of a group writes the group's `RAW` and `LOADED` (R103). -/
theorem effect_keeps_load {i : Instr} {s t : State} (h : CommandEffect s i t) {g : Group}
    (hi : isGoodLoad g i = false) : LoadKept (regs g s) (regs g t) := by
  cases h with
  | rejected => rw [regs_finish]; exact loadKept_self _
  | busError => rw [regs_finish]; exact loadKept_setRegs (loadKept_clearFresh _) g
  | configured => cases g <;> exact ⟨rfl, rfl⟩
  | loaded g' =>
    have hne : g ≠ g' := by
      rintro rfl
      rw [isGoodLoad_loadInstr] at hi
      cases hi
    rw [regs_finish, regs_inSampling, regs_setRegs_ite, if_neg hne]
    exact loadKept_self _
  | converted => rw [regs_finish, regs_inSampling]; exact loadKept_setRegs (loadKept_storeOut _ _) g
  | sampled =>
    rw [regs_finish, regs_inSampling, regs_sample]
    exact (loadKept_storeOut _ _).trans (loadKept_clearFresh _)

/-- `t` is past `UNINIT` with the last load of group g still as it is in `s`. -/
structure LoadHeld (g : Group) (s t : State) : Prop where
  drv : t.drv ≠ .uninit
  load : LoadKept (regs g s) (regs g t)

/-- A step that is neither a reset nor a successful load of group g holds the group's last load. -/
theorem step_holds_load {g : Group} {s t : State} {e : HostEvent} {rest : List HostEvent} (hd : s.drv ≠ .uninit)
    (hs : s.script = e :: rest) (he : loadsGroup g e = false) (hr : isReset e = false) (h : step s = .next t) :
    LoadHeld g s t := by
  have not_reset : ¬ ∃ e' r, s.script = e' :: r ∧ isReset e' = true := by
    rintro ⟨e', r, hs', hr'⟩
    obtain ⟨rfl, -⟩ := List.cons.inj (hs.symm.trans hs')
    rw [hr] at hr'
    cases hr'
  constructor
  · rcases stateTransitions s t h with hdrv | ⟨hu, -⟩ | ⟨-, hdrv, -⟩ | ⟨-, hreset⟩
    · rwa [hdrv]
    · exact absurd hu hd
    · simp [hdrv]
    · exact absurd hreset not_reset
  · rcases step_block_cases h with ⟨hg, -⟩ | ⟨w, r, i, hw, hi, heff⟩ | ⟨-, hreset⟩
    · rw [hg]; exact loadKept_self _
    · obtain ⟨rfl, -⟩ := List.cons.inj (hs.symm.trans hw)
      have hkept := effect_keeps_load heff ((loadsGroup_of_decode hi g).symm.trans he)
      rwa [regs_withScript] at hkept
    · exact absurd hreset not_reset

/-- A run in which no action resets the block or loads group g holds the group's last load. -/
theorem run_holds_load {g : Group} {s u : State} {part rest : List HostEvent} (hd : s.drv ≠ .uninit)
    (hs : s.script = part ++ rest) (hno : ∀ e ∈ part, loadsGroup g e = false) (hr : ∀ e ∈ part, isReset e = false)
    (h : Host.Core.run core part.length s = .next u) : LoadHeld g s u := by
  have hstep (v v' : State) (e : HostEvent) (rest' : List HostEvent) (hv : LoadHeld g s v)
      (hscript : v.script = e :: rest') (he : loadsGroup g e = false ∧ isReset e = false) (hvv : step v = .next v') :
      LoadHeld g s v' := by
    obtain ⟨hnoload, hnoreset⟩ := he
    obtain ⟨hd', hload⟩ := step_holds_load hv.drv hscript hnoload hnoreset hvv
    exact ⟨hd', hv.load.trans hload⟩
  obtain ⟨hheld, -⟩ := run_keeps hstep ⟨hd, loadKept_self _⟩ hs (fun e he => ⟨hno e he, hr e he⟩) h
  exact hheld

/-- A group that is not fresh stays so over a run in which no action loads it (R28). -/
theorem run_stays_stale {g : Group} {s u : State} {part rest : List HostEvent} (hf : (regs g s).fresh = false)
    (hs : s.script = part ++ rest) (hno : ∀ e ∈ part, loadsGroup g e = false)
    (h : Host.Core.run core part.length s = .next u) : (regs g u).fresh = false ∧ u.script = rest :=
  run_keeps (P := fun v => (regs g v).fresh = false) (fun _ _ _ _ => stale_step) hf hs hno h

/-- With a group that is not fresh an SMP is rejected: `NOT_INITIALIZED` comes before `NO_DATA` (R132). -/
theorem exec_smp_stale {g : Group} {s : State} (hf : (regs g s).fresh = false) :
    exec .smp s = .next (finish (if s.drv = .uninit then .notInitialized else .noData) s) := by
  have hstale : s.accel.fresh = false ∨ s.gyro.fresh = false := by
    cases g
    · exact .inl hf
    · exact .inr hf
  rw [exec_smp, sampleBoth, if_pos hstale]
  split
  · rfl
  · rfl

/-- Settles O32: the failed load clears `FRESH` alone, which no action of the run sets again; without a reset the run holds
the load before. -/
theorem noSampleAfterFailedLoad : Obligations.NoSampleAfterFailedLoad := by
  intro g s t u bst d0 d1 d2 d3 d4 d5 between rest c hs hb hload hscript hno hrun hc
  obtain ⟨code, hcode⟩ : ∃ code : ErrCode, bst.toNat = 1 ∧ code = .busAddr ∨ bst.toNat = 2 ∧ code = .busRead := by
    rcases hb with rfl | rfl
    · exact ⟨.busAddr, .inl ⟨rfl, rfl⟩⟩
    · exact ⟨.busRead, .inr ⟨rfl, rfl⟩⟩
  obtain rfl := Host.Outcome.next.inj ((exec_load_failed g hs hcode).symm.trans hload)
  have hregs : regs g (finish code (setRegs g (clearFresh (regs g s)) s)) = clearFresh (regs g s) := by simp
  obtain ⟨hstale, hrest⟩ := run_stays_stale (by rw [hregs, clearFresh_fresh]) hscript hno hrun
  refine ⟨by rw [hregs, clearFresh_raw], by rw [hregs, clearFresh_loaded], hc ▸ exec_smp_stale hstale, hrest,
    fun hreset => ?_⟩
  obtain ⟨hd, hkept⟩ := run_holds_load (by simpa using hs) hscript hno hreset hrun
  rw [hregs] at hkept
  exact ⟨hd, hkept.raw, hkept.loaded⟩

/-! ### The groups are isolated -/

/-- The group that is not g. -/
def otherGroup : Group → Group
  | .accel => .gyro
  | .gyro => .accel

@[simp] theorem setRegs_regs (g : Group) (s : State) : setRegs g (regs g s) s = s := by
  cases g <;> rfl

theorem regs_setRegs_other (g : Group) (r : GroupRegs) (s : State) :
    regs g (setRegs (otherGroup g) r s) = regs g s := by
  cases g <;> rfl

/-- `o'` is `o` with `r` put into group g of its next state. -/
def AnswersWith (g : Group) (r : GroupRegs) (o' o : Result) : Prop := o' = mapNext (setRegs g r) o

theorem raise_answersWith (g : Group) (r : GroupRegs) (c : ErrCode) (s : State) :
    AnswersWith g r (raise c (setRegs g r s)) (raise c s) := by
  cases g <;> rfl

/-- A command neither reads nor writes group g: putting other registers there commutes with it. -/
def IsolatedFrom (g : Group) (i : Instr) : Prop :=
  ∀ (r : GroupRegs) (s : State), AnswersWith g r (exec i (setRegs g r s)) (exec i s)

/-- A command isolated from a group leaves it as it is, and does the same whatever the group holds. The first is the second
for the registers the group already holds. -/
theorem next_of_isolatedFrom {g : Group} {i : Instr} (hi : IsolatedFrom g i) {s t : State} (h : exec i s = .next t)
    (r : GroupRegs) : regs g t = regs g s ∧ exec i (setRegs g r s) = .next (setRegs g r t) := by
  have hput (r : GroupRegs) : exec i (setRegs g r s) = .next (setRegs g r t) :=
    (hi r s).trans (congrArg (mapNext (setRegs g r)) h)
  have hsame := hput (regs g s)
  rw [setRegs_regs] at hsame
  have ht : t = setRegs g (regs g s) t := Host.Outcome.next.inj (h.symm.trans hsame)
  exact ⟨by rw [ht, regs_setRegs], hput r⟩

/-- A load reads and writes nothing of the other group (R101, R103). -/
theorem loadInstr_isolated (g : Group) (bst d0 d1 d2 d3 d4 d5 : Byte) :
    IsolatedFrom (otherGroup g) (loadInstr g bst d0 d1 d2 d3 d4 d5) := by
  intro r s
  rw [exec_loadInstr, exec_loadInstr]
  refine branches_related (AnswersWith _ r) .rfl (raise_answersWith ..) ?_
  refine branches_related (AnswersWith _ r) (by rw [setRegs_drv]) (raise_answersWith ..) ?_
  refine branches_related (AnswersWith _ r) .rfl ?_ (branches_related (AnswersWith _ r) .rfl ?_ ?_)
  all_goals cases g <;> rfl

theorem exec_convInstr (g : Group) (s : State) : exec (convInstr g) s = convertGroup g s := by
  cases g <;> rfl

/-- A conversion reads and writes nothing of the other group (R36). -/
theorem convInstr_isolated (g : Group) : IsolatedFrom (otherGroup g) (convInstr g) := by
  intro r s
  rw [exec_convInstr, exec_convInstr]
  refine branches_related (AnswersWith _ r) (by rw [setRegs_drv]) (raise_answersWith ..) ?_
  refine branches_related (AnswersWith _ r) (by rw [regs_setRegs_other]) (raise_answersWith ..) ?_
  cases g <;> rfl

/-- Settles O34, by the isolation of each of the four commands. -/
theorem groupsAreIsolated : Obligations.GroupsAreIsolated := by
  intro s t r bst d0 d1 d2 d3 d4 d5
  refine ⟨fun i hi h => ?_, fun i hi h => ?_⟩
  · have hiso : IsolatedFrom .gyro i := by
      rcases hi with rfl | rfl
      · exact loadInstr_isolated .accel _ _ _ _ _ _ _
      · exact convInstr_isolated .accel
    exact next_of_isolatedFrom hiso h r
  · have hiso : IsolatedFrom .accel i := by
      rcases hi with rfl | rfl
      · exact loadInstr_isolated .gyro _ _ _ _ _ _ _
      · exact convInstr_isolated .gyro
    exact next_of_isolatedFrom hiso h r

/-! ### The pair decoder -/

/-- The value of a pair: the high byte signed, the low byte unsigned (R102, R105). -/
theorem s16_dec16 (h l : Byte) : s16 (dec16 h l) = 256 * h.toInt + l.toNat := by
  rw [s16_eq_toInt, dec16_eq_append, BitVec.toInt_append]
  rfl

theorem isCount_s16 (v : Half) : IsCount (s16 v) := by
  have hlo := BitVec.le_toInt v
  have hhi := BitVec.toInt_lt (x := v)
  rw [s16_eq_toInt]
  exact ⟨hlo, by omega⟩

/-- The sign bit of a pair is that of its high byte; the low byte has no part in it (R105). -/
theorem msb_dec16 (h l : Byte) : (dec16 h l).msb = h.getLsbD 7 := by
  rw [dec16_eq_append, BitVec.msb_append, if_neg (by decide), BitVec.msb_eq_getLsbD_last]

theorem getLsbD_dec16_last (h l : Byte) : (dec16 h l).getLsbD 15 = h.getLsbD 7 := by
  rw [← msb_dec16 h l, BitVec.msb_eq_getLsbD_last]

/-- Sign extension copies the sign bit into every bit from its own position up (R102). -/
theorem getLsbD_signExtend_of_last_le {w n k : Nat} (v : BitVec w) (hk : w - 1 ≤ k) (hkn : k < n) :
    (v.signExtend n).getLsbD k = v.msb := by
  rw [BitVec.getLsbD_signExtend, decide_eq_true hkn, Bool.true_and]
  split
  · rw [BitVec.msb_eq_getLsbD_last, show k = w - 1 by omega]
  · rfl

/-- Settles O36: the pair as the concatenation of its bytes, and the extension of its sign bit. -/
theorem pairDecoder : Obligations.PairDecoder := by
  intro h l
  refine ⟨rfl, dec16_eq_append h l, ?_, s16_eq_toInt _, s16_dec16 h l, getLsbD_dec16_last h l, isCount_s16 _,
    fun n hn => ⟨?_, fun k hk hkn => ?_⟩⟩
  · rw [dec16_eq_append]; exact toNat_append_eq_add h l
  · rw [BitVec.toInt_signExtend_of_le hn, s16_eq_toInt]
  · rw [getLsbD_signExtend_of_last_le _ hk hkn, msb_dec16]

/-- A pattern is read back from its value (R13). -/
theorem u16_s16 (v : Half) : u16 (s16 v) = v := by
  rw [u16_eq_ofInt, s16_eq_toInt, BitVec.ofInt_toInt]

theorem hi8_dec16 (h l : Byte) : hi8 (dec16 h l) = h := by
  rw [hi8, dec16_eq_append, BitVec.extractLsb'_append_eq_left]

theorem lo8_dec16 (h l : Byte) : lo8 (dec16 h l) = l := by
  rw [lo8, dec16_eq_append, BitVec.extractLsb'_append_eq_right]

/-- Settles O37: the two round trips, and the boundary table by evaluation. -/
theorem decoderIsBijection : Obligations.DecoderIsBijection := by
  refine ⟨fun n hn => s16_dec16_u16 hn, fun h l => ?_, by decide⟩
  rw [u16_s16, hi8_dec16, lo8_dec16]
  exact ⟨isCount_s16 _, rfl, rfl⟩

end Sys2Proof.Proofs

namespace Sys2Proof.Proofs

/-!
Rounding on the range of the converter (spec 00_scope R15; 42_convert R125, R126): which reals a pattern denotes, the exponent
field by the magnitude, and what `RNE64` keeps of a real: its range, its sign, and its value where a pattern denotes it.
-/

open Sys2Proof.Machine Sys2Proof.Laws

/-! ### Reals that a pattern denotes -/

/-- Some finite pattern denotes `x`. -/
def Representable (x : ℚ) : Prop := ∃ b : F64, Finite64 b ∧ realOf b = x

/-- A significand of 53 bits with an exponent of the normal range. -/
theorem representable_normal (neg : Bool) {M : Nat} {e : Int} (hlo : 2 ^ 52 ≤ M) (hhi : M < 2 ^ 53) (he : -1074 ≤ e)
    (he' : e ≤ 970) : Representable (signRat neg * (M * 2 ^ e)) := by
  have hm : (e + 1074).toNat * 2 ^ 52 + M < 2 ^ 63 := by omega
  refine ⟨_, ?_, realOf_mk neg he hhi.le (.inl hlo) hm⟩
  rw [Finite64, expOf_mk neg hm]
  omega

theorem representable_two_zpow {e : Int} (he : -1022 ≤ e) (he' : e ≤ 1022) : Representable ((2 : ℚ) ^ e) := by
  have h := representable_normal false (M := 2 ^ 52) (e := e - 52) le_rfl (by decide) (by omega) (by omega)
  have hval : signRat false * (((2 ^ 52 : Nat) : ℚ) * 2 ^ (e - 52)) = 2 ^ e := by
    rw [signRat, if_neg Bool.false_ne_true, one_mul, Nat.cast_pow, Nat.cast_ofNat, ← zpow_natCast, ← zpow_add₀ two_ne_zero]
    congr 1
    omega
  exact hval ▸ h

/-! ### The exponent field by the magnitude -/

theorem sigOf_of_normal {b : F64} (h : 0 < expOf b) : sigOf b = 2 ^ 52 + fracOf b := if_neg h.ne'

/-- A normal pattern lies in the binade of its exponent field. -/
theorem binade_of_normal {b : F64} (h : 0 < expOf b) :
    (2 : ℚ) ^ ((expOf b : Int) - 1023) ≤ |realOf b| ∧ |realOf b| < 2 ^ ((expOf b : Int) - 1023 + 1) := by
  constructor
  · rw [abs_realOf, num_div_den, max_eq_left (Nat.succ_le_of_lt h)]
    calc (2 : ℚ) ^ ((expOf b : Int) - 1023) = 2 ^ 52 * 2 ^ ((expOf b : Int) - 1075) := by
          rw [← zpow_natCast, ← zpow_add₀ two_ne_zero]
          congr 1
          omega
      _ ≤ sigOf b * 2 ^ ((expOf b : Int) - 1075) := by
          gcongr
          rw [sigOf_of_normal h]
          exact_mod_cast Nat.le_add_right _ _
  · have hlt := abs_realOf_lt b (e := (expOf b : Int) - 1074) (by omega)
    rwa [show (expOf b : Int) - 1074 + 52 = (expOf b : Int) - 1023 + 1 by ring] at hlt

/-- `x` is 0, or its magnitude is in `[2^-a, 2^b]`. -/
def Within (a b : Nat) (x : ℚ) : Prop := x = 0 ∨ (2 : ℚ) ^ (-a : Int) ≤ |x| ∧ |x| ≤ 2 ^ b

theorem Within.abs_le {a b : Nat} {x : ℚ} (h : Within a b x) : |x| ≤ 2 ^ b := by
  rcases h with rfl | h
  · simp
  · exact h.2

theorem Within.mono {a b a' b' : Nat} {x : ℚ} (h : Within a b x) (ha : a ≤ a') (hb : b ≤ b') : Within a' b' x := by
  refine h.imp_right fun ⟨hlo, hhi⟩ => ⟨le_trans ?_ hlo, hhi.trans ?_⟩
  · exact zpow_le_zpow_right₀ one_le_two (by omega)
  · exact pow_le_pow_right₀ one_le_two hb

theorem Within.neg {a b : Nat} {x : ℚ} (h : Within a b x) : Within a b (-x) := by
  simpa only [Within, neg_eq_zero, abs_neg] using h

theorem Within.mul {a b a' b' : Nat} {x y : ℚ} (hx : Within a b x) (hy : Within a' b' y) :
    Within (a + a') (b + b') (x * y) := by
  rcases hx with rfl | ⟨hxlo, hxhi⟩
  · exact .inl (zero_mul y)
  rcases hy with rfl | ⟨hylo, hyhi⟩
  · exact .inl (mul_zero x)
  rw [Within, abs_mul, Nat.cast_add, neg_add, zpow_add₀ two_ne_zero, pow_add]
  exact .inr ⟨by gcongr, by gcongr⟩

theorem Within.inv {a b : Nat} {x : ℚ} (h : Within a b x) : Within b a x⁻¹ := by
  rcases h with rfl | ⟨hlo, hhi⟩
  · exact .inl inv_zero
  · have hpos : 0 < |x| := lt_of_lt_of_le (by positivity) hlo
    rw [Within, abs_inv, zpow_neg, zpow_natCast]
    refine .inr ⟨by gcongr, ?_⟩
    rw [zpow_neg, zpow_natCast] at hlo
    exact inv_le_of_inv_le₀ (by positivity) hlo

theorem Within.div {a b a' b' : Nat} {x y : ℚ} (hx : Within a b x) (hy : Within a' b' y) :
    Within (a + b') (b + a') (x / y) :=
  div_eq_mul_inv x y ▸ hx.mul hy.inv

theorem Within.abs_le_max {a b : Nat} {x : ℚ} (h : Within a b x) (hb : b ≤ 1023) : |x| ≤ 2 ^ 1023 :=
  h.abs_le.trans (pow_le_pow_right₀ one_le_two hb)

/-- A nonzero pattern of moderate magnitude is normal. -/
theorem normal_of_within {b : F64} (h0 : realOf b ≠ 0) (h : Within 64 64 (realOf b)) : 959 ≤ expOf b ∧ expOf b ≤ 1087 := by
  obtain ⟨hlo, hhi⟩ := h.resolve_left h0
  have hge : 959 ≤ expOf b := by
    by_contra hlt
    have hlt' := abs_realOf_lt b (e := -116) (by omega)
    exact absurd hlo (not_le.2 hlt')
  refine ⟨hge, ?_⟩
  have hbin := (binade_of_normal (by omega : 0 < expOf b)).1.trans hhi
  rw [← zpow_natCast] at hbin
  have hexp := (zpow_le_zpow_iff_right₀ (one_lt_two : (1 : ℚ) < 2)).1 hbin
  push_cast at hexp
  omega

/-! ### What rounding keeps -/

theorem rne64_zero : rne64 0 = 0#64 := rfl

section
variable {x : ℚ} (hx : |x| ≤ 2 ^ 1023)
include hx

/-- A denoted real is no nearer to `x` than `RNE64(x)`. -/
theorem rne64_nearest {y : ℚ} (hy : Representable y) : |realOf (rne64 x) - x| ≤ |y - x| := by
  obtain ⟨b, hb, rfl⟩ := hy
  exact (roundsToNearestEven x b hx hb).2.1

/-- Rounding is exact where it can be. -/
theorem realOf_rne64 (h : Representable x) : realOf (rne64 x) = x := by
  have hle := rne64_nearest hx h
  rwa [sub_self, abs_zero, abs_nonpos_iff, sub_eq_zero] at hle

/-- Rounding does not pass a denoted real from above. -/
theorem le_realOf_rne64 {l : ℚ} (hl : Representable l) (hlx : l ≤ x) : l ≤ realOf (rne64 x) := by
  have hle := (neg_le_abs _).trans (rne64_nearest hx hl)
  rw [abs_of_nonpos (sub_nonpos.2 hlx)] at hle
  linarith

/-- Rounding does not pass a denoted real from below. -/
theorem realOf_rne64_le {u : ℚ} (hu : Representable u) (hxu : x ≤ u) : realOf (rne64 x) ≤ u := by
  have hle := (le_abs_self _).trans (rne64_nearest hx hu)
  rw [abs_of_nonneg (sub_nonneg.2 hxu)] at hle
  linarith

end

/-- The opposite real is rounded as the same fraction with the other sign. -/
theorem rne64_neg_eq_roundTo {x : ℚ} (h0 : x ≠ 0) : rne64 (-x) = roundTo (!decide (x < 0)) x.num.natAbs x.den := by
  have hsign : decide (-x < 0) = !decide (x < 0) := by
    rcases lt_or_gt_of_ne h0 with h | h
    · simp [h, h.le]
    · simp [h, h.le]
  rw [rne64, Rat.neg_num, Int.natAbs_neg, Rat.neg_den, hsign]

theorem signRat_not (neg : Bool) : signRat (!neg) = -signRat neg := by cases neg <;> simp [signRat]

/-- The sign of a rounded fraction is its bit 63 alone. -/
theorem roundTo_not (neg : Bool) {n d : Nat} (hn : n ≠ 0) (hm : rneMag n d < 0x7FF0000000000000) :
    roundTo (!neg) n d = roundTo neg n d ^^^ 0x8000000000000000#64 := by
  have hmsb : (0x8000000000000000#64 : F64) = BitVec.ofBool true ++ 0#63 := by decide
  rw [roundTo, roundTo, if_neg hn, if_neg hn, if_pos hm, if_pos hm, hmsb]
  have happend := BitVec.xor_append (x₁ := BitVec.ofBool neg) (y₁ := BitVec.ofNat 63 (rneMag n d))
    (x₂ := BitVec.ofBool true) (y₂ := 0#63)
  rw [BitVec.ofBool_xor_ofBool, Bool.xor_true, BitVec.xor_zero] at happend
  exact happend.symm

/-- Rounding is symmetric about zero (R126). -/
theorem rne64_neg {x : ℚ} (hx : |x| ≤ 2 ^ 1023) (h0 : x ≠ 0) :
    rne64 (-x) = rne64 x ^^^ 0x8000000000000000#64 ∧ realOf (rne64 (-x)) = -realOf (rne64 x) := by
  have hn : 0 < x.num.natAbs := Int.natAbs_pos.2 (Rat.num_ne_zero.2 h0)
  have hm := rneMag_lt hn x.den_pos (natAbs_div_den x ▸ hx)
  rw [rne64_neg_eq_roundTo h0]
  refine ⟨roundTo_not _ hn.ne' hm, ?_⟩
  rw [rne64, (realOf_roundTo _ hn x.den_pos hm).1, (realOf_roundTo _ hn x.den_pos hm).1, signRat_not, neg_mul]

theorem realOf_zero : realOf 0#64 = 0 := by decide +kernel

theorem realOf_rne64_neg {x : ℚ} (hx : |x| ≤ 2 ^ 1023) : realOf (rne64 (-x)) = -realOf (rne64 x) := by
  rcases eq_or_ne x 0 with rfl | h0
  · rw [neg_zero, rne64_zero, realOf_zero, neg_zero]
  · exact (rne64_neg hx h0).2

/-- Rounding keeps a range of magnitudes whose ends are powers of two. -/
theorem abs_realOf_rne64_mem {a b : Nat} {x : ℚ} (ha : a ≤ 64) (hb : b ≤ 64) (hlo : (2 : ℚ) ^ (-a : Int) ≤ |x|)
    (hhi : |x| ≤ 2 ^ b) : (2 : ℚ) ^ (-a : Int) ≤ |realOf (rne64 x)| ∧ |realOf (rne64 x)| ≤ 2 ^ b := by
  have hmax : |x| ≤ 2 ^ 1023 := hhi.trans (pow_le_pow_right₀ one_le_two (by omega))
  wlog hpos : 0 ≤ x generalizing x
  · have hneg := this (hlo.trans (abs_neg x).ge) ((abs_neg x).le.trans hhi) ((abs_neg x).le.trans hmax)
      (neg_nonneg.2 (not_le.1 hpos).le)
    rwa [realOf_rne64_neg hmax, abs_neg] at hneg
  rw [abs_of_nonneg hpos] at hlo hhi
  have hl := le_realOf_rne64 hmax (representable_two_zpow (by omega) (by omega)) hlo
  rw [← zpow_natCast] at hhi ⊢
  have hu := realOf_rne64_le hmax (representable_two_zpow (by omega) (by omega)) hhi
  rw [abs_of_nonneg ((by positivity : (0 : ℚ) ≤ 2 ^ (-a : Int)).trans hl)]
  exact ⟨hl, hu⟩

section
variable {a b : Nat} {x : ℚ} (h : Within a b x) (ha : a ≤ 64) (hb : b ≤ 64)
include h ha hb

theorem within_realOf_rne64 : Within a b (realOf (rne64 x)) := by
  rcases h with rfl | ⟨hlo, hhi⟩
  · exact .inl realOf_zero
  · exact .inr (abs_realOf_rne64_mem ha hb hlo hhi)

theorem realOf_rne64_pos (hx : 0 < x) : 0 < realOf (rne64 x) := by
  have hlo := (h.resolve_left hx.ne').1
  rw [abs_of_pos hx] at hlo
  exact (by positivity : (0 : ℚ) < 2 ^ (-a : Int)).trans_le
    (le_realOf_rne64 (h.abs_le_max (by omega)) (representable_two_zpow (by omega) (by omega)) hlo)

theorem realOf_rne64_lt_zero (hx : x < 0) : realOf (rne64 x) < 0 := by
  have hpos := realOf_rne64_pos h.neg ha hb (neg_pos.2 hx)
  rw [realOf_rne64_neg (h.abs_le_max (by omega))] at hpos
  exact neg_pos.1 hpos

theorem realOf_rne64_ne_zero (hx : x ≠ 0) : realOf (rne64 x) ≠ 0 := by
  rcases lt_or_gt_of_ne hx with hx | hx
  · exact (realOf_rne64_lt_zero h ha hb hx).ne
  · exact (realOf_rne64_pos h ha hb hx).ne'

end

/-- A nonzero pattern whose real is in R125's range is a normal number in the range. -/
theorem zeroOrInRange_of_within {b : F64} (h0 : realOf b ≠ 0) (h : Within 31 31 (realOf b)) : ZeroOrInRange b := by
  have hexp := normal_of_within h0 (h.mono (by decide) (by decide))
  have habs := h.resolve_left h0
  rw [zpow_neg, ← one_div] at habs
  exact .inr ⟨by omega, by omega, habs⟩

/-- A rounded real of R125's range is +0.0 or normal and in the range. -/
theorem zeroOrInRange_rne64 {x : ℚ} (h : Within 31 31 x) : ZeroOrInRange (rne64 x) := by
  rcases eq_or_ne x 0 with rfl | h0
  · exact .inl rfl
  · exact zeroOrInRange_of_within (realOf_rne64_ne_zero h (by decide) (by decide) h0)
      (within_realOf_rne64 h (by decide) (by decide))

/-- A pattern as a number, by its three fields (R15). -/
theorem toNat_eq_fields (b : F64) : b.toNat = (signOf b).toNat * 2 ^ 63 + (expOf b * 2 ^ 52 + fracOf b) := by
  have hlt := b.isLt
  have hsign : (signOf b).toNat = b.toNat / 2 ^ 63 := by
    rw [signOf, BitVec.getLsbD, Nat.toNat_testBit]
    omega
  rw [hsign, expOf, fracOf, BitVec.extractLsb'_toNat, BitVec.extractLsb'_toNat, Nat.shiftRight_eq_div_pow]
  omega

/-- The rounded magnitude of a normal pattern's own fraction: its exponent and fraction fields. -/
theorem rneMag_of_normal {b : F64} (h : 0 < expOf b) : rneMag (numOf b) (denOf b) = expOf b * 2 ^ 52 + fracOf b := by
  have hnum : 0 < numOf b := by
    rw [numOf, sigOf_of_normal h]
    positivity
  have hbin := binade_of_normal h
  rw [abs_realOf] at hbin
  have hulp : ulpExp (numOf b) (denOf b) = (expOf b : Int) - 1075 := by
    rw [ulpExp, floorLog2_unique hnum (denOf_pos b) hbin.1 hbin.2]
    omega
  have hround : roundAt ((expOf b : Int) - 1075) (numOf b) (denOf b) = sigOf b := by
    have hneg : (-((expOf b : Int) - 1075)).toNat = 1075 - expOf b := by omega
    have hpos : ((expOf b : Int) - 1075).toNat = expOf b - 1075 := by omega
    rw [roundAt, hneg, hpos, numOf, denOf, max_eq_left (Nat.succ_le_of_lt h), Nat.mul_assoc,
      Nat.mul_comm (2 ^ (expOf b - 1075))]
    exact roundQuot_exact _ (by positivity)
  rw [rneMag, hulp, hround, sigOf_of_normal h]
  omega

/-- A nonzero pattern of moderate magnitude is read back from its real, bit for bit. -/
theorem rne64_realOf {b : F64} (h0 : realOf b ≠ 0) (h : Within 64 64 (realOf b)) : rne64 (realOf b) = b := by
  have hexp := normal_of_within h0 h
  have hmag := rneMag_of_normal (b := b) (by omega)
  have hfrac : fracOf b < 2 ^ 52 := BitVec.isLt _
  have hnum : numOf b ≠ 0 := fun hz => h0 (by rw [realOf_eq_signRat_mul, hz]; simp)
  rw [realOf_eq_signRat_mul, ← roundTo_eq_rne64 _ _ (denOf_pos b), roundTo, if_neg hnum, if_pos (by omega), hmag]
  apply BitVec.eq_of_toNat_eq
  rw [toNat_mk _ (by omega), ← toNat_eq_fields]

/-- Rounding a rounded real changes nothing. -/
theorem rne64_realOf_rne64 {x : ℚ} (h : Within 64 64 x) : rne64 (realOf (rne64 x)) = rne64 x := by
  rcases eq_or_ne x 0 with rfl | h0
  · rw [rne64_zero, realOf_zero, rne64_zero]
  · exact rne64_realOf (realOf_rne64_ne_zero h le_rfl le_rfl h0) (within_realOf_rne64 h le_rfl le_rfl)

/-- A moderate denoted real divided by a moderate power of two is denoted: only the exponent changes (R128). -/
theorem representable_div_two_pow {b : F64} (h : Within 64 64 (realOf b)) {k : Nat} (hk : k ≤ 64) :
    Representable (realOf b / 2 ^ k) := by
  rcases eq_or_ne (realOf b) 0 with h0 | h0
  · exact ⟨0#64, by unfold Finite64; decide, by rw [h0, zero_div, realOf_zero]⟩
  have hexp := normal_of_within h0 h
  have hsig := sigOf_of_normal (b := b) (by omega)
  have hval : realOf b / 2 ^ k = signRat (signOf b) * (sigOf b * 2 ^ ((expOf b : Int) - 1075 - k)) := by
    rw [realOf_eq, max_eq_left (by omega : 1 ≤ expOf b), zpow_sub₀ two_ne_zero _ (k : Int), zpow_natCast, mul_div_assoc,
      mul_div_assoc]
  rw [hval]
  exact representable_normal _ (by omega) (sigOf_lt b) (by omega) (by omega)

end Sys2Proof.Proofs

namespace Sys2Proof.Proofs

/-!
The converter statements (spec 42_convert R120 to R132): a conversion as one rounding of an exact result, from which its range,
its sign, its scale and the agreement of the modes follow; then the answers of CVA, CVG and SMP, and a run after a sample.
-/

open Sys2Proof.Machine Sys2Proof.Laws

/-! ### The operations on counts -/

theorem within_count {r : Int} (hr : IsCount r) : Within 0 15 (r : ℚ) := by
  rcases eq_or_ne r 0 with rfl | h0
  · exact .inl Int.cast_zero
  have hlo : (1 : ℚ) ≤ |(r : ℚ)| := by exact_mod_cast Int.one_le_abs h0
  have hhi : |r| ≤ 2 ^ 15 := abs_le.2 ⟨hr.1, hr.2.trans (by decide)⟩
  exact .inr ⟨by simpa using hlo, by exact_mod_cast hhi⟩

theorem realOf_f64_count {r : Int} (hr : IsCount r) : realOf (f64 r) = r :=
  arithmeticIsCorrectlyRounded.1 r hr

theorem f64_eq_rne64 (r : Int) : f64 r = rne64 r := by
  simp only [f64, rne64, Rat.num_intCast, Rat.den_intCast, Int.cast_lt_zero]

theorem realOf_one64 : realOf one64 = 1 := by decide +kernel

/-! ### The sensitivity and the constant of a group -/

/-- The sensitivity a group's conversion divides by (R121, R122). -/
def sensOf (g : Group) (p : Params) (fs : BitVec 2) : F64 :=
  match g with
  | .accel => p.sensA.get fs
  | .gyro => p.sensG.get fs

/-- The constant a group's conversion multiplies by; 1.0 for group A in unit G, which has none (R121, R122). -/
def constOf (g : Group) (p : Params) : F64 :=
  match g with
  | .accel =>
    match p.accelUnit with
    | .mps2 => p.grav
    | .g => one64
  | .gyro => p.deg2rad

/-- The exact real that the last rounding of a conversion takes, for a sensitivity `S`, a constant `C` and a count `x`
(R121, R122). -/
def exactResult (m : ConvMode) (S C x : ℚ) : ℚ :=
  match m with
  | .twoStep => realOf (rne64 (x / S)) * C
  | .fused => x * realOf (rne64 (C / S))

section
variable {p : Params} (hp : legalParams p = true)
include hp

theorem sensOf_range (g : Group) (fs : BitVec 2) : 1 ≤ realOf (sensOf g p fs) ∧ realOf (sensOf g p fs) ≤ 32768 := by
  obtain ⟨hsens, -⟩ := (legalBuildRanges p).1 hp
  obtain ⟨hAlo, hAhi, hG⟩ := hsens fs
  cases g
  · exact ⟨hAlo, hAhi⟩
  · exact hG

theorem constOf_range (g : Group) : 1 / 2 ^ 16 ≤ realOf (constOf g p) ∧ realOf (constOf g p) ≤ 2 ^ 16 := by
  obtain ⟨-, hAlo, hAhi, hG⟩ := (legalBuildRanges p).1 hp
  cases g with
  | accel =>
    cases hu : p.accelUnit with
    | mps2 => simpa only [constOf, hu] using ⟨hAlo, hAhi⟩
    | g =>
      simp only [constOf, hu, realOf_one64]
      norm_num
  | gyro => exact hG

theorem sensOf_pos (g : Group) (fs : BitVec 2) : 0 < realOf (sensOf g p fs) :=
  one_pos.trans_le (sensOf_range hp g fs).1

theorem constOf_pos (g : Group) : 0 < realOf (constOf g p) :=
  (by positivity : (0 : ℚ) < 1 / 2 ^ 16).trans_le (constOf_range hp g).1

theorem within_sensOf (g : Group) (fs : BitVec 2) : Within 0 15 (realOf (sensOf g p fs)) := by
  obtain ⟨hlo, hhi⟩ := sensOf_range hp g fs
  rw [Within, abs_of_pos (sensOf_pos hp g fs)]
  exact .inr ⟨by simpa using hlo, hhi.trans (by norm_num)⟩

theorem within_constOf (g : Group) : Within 16 16 (realOf (constOf g p)) := by
  obtain ⟨hlo, hhi⟩ := constOf_range hp g
  rw [Within, abs_of_pos (constOf_pos hp g), zpow_neg, ← one_div]
  exact .inr ⟨hlo, hhi⟩

theorem divR_sensOf (g : Group) (fs : BitVec 2) (a : F64) :
    divR a (sensOf g p fs) = rne64 (realOf a / realOf (sensOf g p fs)) :=
  divR_eq_rne64 a (sensOf_pos hp g fs).ne'

/-- A quotient of a count by a sensitivity (R125). -/
theorem within_quotient (g : Group) (fs : BitVec 2) {r : Int} (hr : IsCount r) :
    Within 15 15 ((r : ℚ) / realOf (sensOf g p fs)) :=
  (within_count hr).div (within_sensOf hp g fs)

end

/-- Settles O42: each branch of the definition, its operations read as `RNE64`. -/
theorem accelConversion : Obligations.AccelConversion := by
  rintro p fs r _ hp hr rfl
  have hlegal : cvtA p fs r = cvtALegal p fs r := if_pos hp
  have hdiv (a : F64) : divR a (p.sensA.get fs) = rne64 (realOf a / realOf (p.sensA.get fs)) :=
    divR_sensOf hp .accel fs a
  refine ⟨fun hu hm => ?_, fun hu hm => ?_, fun hu hm => ?_, fun hu hm => ?_⟩
  · simp only [hlegal, cvtALegal, hu, hm]
    rw [mulR_eq_rne64, hdiv, realOf_f64_count hr]
  · simp only [hlegal, cvtALegal, hu, hm]
    rw [mulR_eq_rne64, fusedKA, hdiv, realOf_f64_count hr]
  · simp only [hlegal, cvtALegal, hu, hm]
    rw [hdiv, realOf_f64_count hr]
  · simp only [hlegal, cvtALegal, hu, hm]
    rw [mulR_eq_rne64, fusedKA1, hdiv, realOf_f64_count hr, realOf_one64]

/-- Settles O43, as for group A. -/
theorem gyroConversion : Obligations.GyroConversion := by
  rintro p fs r _ hp hr rfl
  have hlegal : cvtG p fs r = cvtGLegal p fs r := if_pos hp
  have hdiv (a : F64) : divR a (p.sensG.get fs) = rne64 (realOf a / realOf (p.sensG.get fs)) :=
    divR_sensOf hp .gyro fs a
  refine ⟨fun hm => ?_, fun hm => ?_⟩
  · simp only [hlegal, cvtGLegal, hm]
    rw [mulR_eq_rne64, hdiv, realOf_f64_count hr]
  · simp only [hlegal, cvtGLegal, hm]
    rw [mulR_eq_rne64, fusedKG, hdiv, realOf_f64_count hr]

/-- A conversion in a legal build is one rounding of its exact result. In unit G the factor 1.0 changes nothing: the quotient
is rounded already. -/
theorem cvt_eq_rne64 {p : Params} (hp : legalParams p = true) (g : Group) (fs : BitVec 2) {r : Int} (hr : IsCount r) :
    cvt g p fs r = rne64 (exactResult p.convMode (realOf (sensOf g p fs)) (realOf (constOf g p)) r) := by
  cases g with
  | accel =>
    obtain ⟨hmt, hmf, hgt, hgf⟩ := accelConversion p fs r _ hp hr rfl
    cases hu : p.accelUnit <;> cases hm : p.convMode
    · simp only [exactResult, constOf, hu]
      exact hmt hu hm
    · simp only [exactResult, constOf, hu]
      exact hmf hu hm
    · have hquot := rne64_realOf_rne64 ((within_quotient hp .accel fs hr).mono (by decide) (by decide))
      simp only [exactResult, constOf, hu, realOf_one64, mul_one]
      exact (hgt hu hm).trans hquot.symm
    · simp only [exactResult, constOf, hu, realOf_one64]
      exact hgf hu hm
  | gyro =>
    obtain ⟨ht, hf⟩ := gyroConversion p fs r _ hp hr rfl
    cases hm : p.convMode
    · exact ht hm
    · exact hf hm

/-! ### The lanes -/

theorem cvtTriple_eq_toInt (g : Group) (p : Params) (fs : BitVec 2) (t : Triple 16) :
    cvtTriple g p fs t = ⟨cvt g p fs t.x.toInt, cvt g p fs t.y.toInt, cvt g p fs t.z.toInt⟩ := by
  simp only [cvtTriple, s16_eq_toInt]

theorem isCount_toInt (v : Half) : IsCount v.toInt :=
  s16_eq_toInt v ▸ isCount_s16 v

/-- The fused constant of a group (R123). -/
def fusedConst (g : Group) (p : Params) (fs : BitVec 2) : F64 :=
  divR (constOf g p) (sensOf g p fs)

theorem realOf_fusedConst {p : Params} (hp : legalParams p = true) (g : Group) (fs : BitVec 2) :
    realOf (fusedConst g p fs) = realOf (rne64 (realOf (constOf g p) / realOf (sensOf g p fs))) := by
  rw [fusedConst, divR_sensOf hp]

/-- Settles O44: a lane is a conversion, and in `FUSED` the rounded product of its count and the group's constant. -/
theorem fusedIsDiagonalMatrix : Obligations.FusedIsDiagonalMatrix := by
  refine ⟨cvtTriple_eq_toInt, ?_⟩
  rintro p fs t _ hp hm rfl g K _ hK rfl
  have hconst : K = realOf (fusedConst g p fs) := by
    rw [hK]
    cases g with
    | accel => cases hu : p.accelUnit <;> simp only [fusedConst, constOf, hu] <;> rfl
    | gyro => rfl
  have hlane (v : Half) : cvt g p fs v.toInt = rne64 (K * v.toInt) := by
    rw [cvt_eq_rne64 hp g fs (isCount_toInt v), hm, exactResult, hconst, realOf_fusedConst hp, mul_comm]
  rw [cvtTriple_eq_toInt, hlane, hlane, hlane, Matrix.mulVec_diagonal, Matrix.mulVec_diagonal, Matrix.mulVec_diagonal]
  rfl

/-! ### The range of a conversion -/

/-- The exact result is 0 or in R125's range: the quotient is in `[2^-15, 2^15]`, the fused constant in `[2^-31, 2^16]`. -/
theorem within_exactResult (m : ConvMode) {S C x : ℚ} (hS : Within 0 15 S) (hC : Within 16 16 C) (hx : Within 0 15 x) :
    Within 31 31 (exactResult m S C x) := by
  cases m with
  | twoStep => exact (within_realOf_rne64 (hx.div hS) (by decide) (by decide)).mul hC
  | fused => exact hx.mul (within_realOf_rne64 (hC.div hS) (by decide) (by decide))

theorem zeroOrInRange_cvt {p : Params} (hp : legalParams p = true) (g : Group) (fs : BitVec 2) {r : Int}
    (hr : IsCount r) : ZeroOrInRange (cvt g p fs r) := by
  rw [cvt_eq_rne64 hp g fs hr]
  exact zeroOrInRange_rne64 (within_exactResult _ (within_sensOf hp g fs) (within_constOf hp g) (within_count hr))

theorem zeroOrInRange_fusedConst {p : Params} (hp : legalParams p = true) (g : Group) (fs : BitVec 2) :
    ZeroOrInRange (fusedConst g p fs) := by
  rw [fusedConst, divR_sensOf hp]
  exact zeroOrInRange_rne64 (((within_constOf hp g).div (within_sensOf hp g fs)).mono (by decide) (by decide))

theorem zeroOrInRange_quotient {p : Params} (hp : legalParams p = true) (g : Group) (fs : BitVec 2) {r : Int}
    (hr : IsCount r) : ZeroOrInRange (divR (f64 r) (sensOf g p fs)) := by
  rw [divR_sensOf hp, realOf_f64_count hr]
  exact zeroOrInRange_rne64 ((within_quotient hp g fs hr).mono (by decide) (by decide))

/-- Settles O45: each value is one rounding of a real in the range. The two constants of group A are those of the two units. -/
theorem noExceptionalValues : Obligations.NoExceptionalValues := by
  intro p fs r hp hr
  have hf64 : ZeroOrInRange (f64 r) := by
    rw [f64_eq_rne64]
    exact zeroOrInRange_rne64 ((within_count hr).mono (by decide) (by decide))
  exact ⟨hf64, zeroOrInRange_quotient hp .accel fs hr, zeroOrInRange_quotient hp .gyro fs hr,
    zeroOrInRange_fusedConst (p := { p with accelUnit := .mps2 }) hp .accel fs,
    zeroOrInRange_fusedConst (p := { p with accelUnit := .g }) hp .accel fs, zeroOrInRange_fusedConst hp .gyro fs,
    zeroOrInRange_cvt hp .accel fs hr, zeroOrInRange_cvt hp .gyro fs hr⟩

/-! ### The output registers on every run -/

/-- No action of the host changes the build (R8). -/
theorem step_params {s t : State} (h : step s = .next t) : t.params = s.params := by
  rcases step_cases h with ⟨-, rfl⟩ | ⟨w, rest, -, hc⟩ | ⟨i, rest, -, rfl⟩ | ⟨rest, -, rfl⟩
  · rfl
  · obtain ⟨u, hu, -, hparams, -⟩ := cmdIssue_completes w { s with script := rest }
    obtain rfl := Host.Outcome.next.inj (hu.symm.trans hc)
    exact hparams
  · rfl
  · rfl

/-- The three registers of an output file hold +0.0 or values in R125's range. -/
def FileInRange (t : Triple 64) : Prop := ZeroOrInRange t.x ∧ ZeroOrInRange t.y ∧ ZeroOrInRange t.z

theorem fileInRange_reset : FileInRange GroupRegs.reset.out :=
  ⟨.inl rfl, .inl rfl, .inl rfl⟩

theorem fileInRange_cvtTriple {p : Params} (hp : legalParams p = true) (g : Group) (fs : BitVec 2) (t : Triple 16) :
    FileInRange (cvtTriple g p fs t) :=
  ⟨zeroOrInRange_cvt hp g fs (isCount_s16 _), zeroOrInRange_cvt hp g fs (isCount_s16 _),
    zeroOrInRange_cvt hp g fs (isCount_s16 _)⟩

/-- A step leaves an output file, writes a conversion to it, or resets it. -/
theorem step_keeps_outputsInRange {s t : State} (ho : OutputsInRange s) (h : step s = .next t) : OutputsInRange t := by
  refine ⟨(step_params h).symm ▸ ho.legal, fun g => ?_⟩
  obtain ⟨hfiles, -, -⟩ := stepKeepsWholeSamples s t h
  change FileInRange (regs g t).out
  rcases hfiles g with ⟨hout, -⟩ | ⟨hout, -⟩ | ⟨hout, -⟩
  · exact hout ▸ ho.inRange g
  · exact hout ▸ fileInRange_cvtTriple ho.legal g _ _
  · exact hout ▸ fileInRange_reset

theorem outputsInRange_bootState {p : Params} (hp : legalParams p = true) (script : List HostEvent) :
    OutputsInRange (bootState p script) :=
  ⟨hp, fun g => by cases g <;> exact fileInRange_reset⟩

theorem run_keeps_outputsInRange {s t : State} {k : Nat} (ho : OutputsInRange s)
    (h : Host.Core.run core k s = .next t) : OutputsInRange t := by
  induction k generalizing s with
  | zero =>
    obtain rfl := Host.Outcome.next.inj h
    exact ho
  | succ k ih =>
    obtain ⟨u, hu, hrun⟩ := run_succ_cases h
    exact ih (step_keeps_outputsInRange ho hu) hrun

/-- Settles O53: the boot states are in range, and each step of a run from them keeps the range. -/
theorem outputsAlwaysInRange : Obligations.OutputsAlwaysInRange :=
  ⟨fun _ _ => step_keeps_outputsInRange, fun _ script hp => outputsInRange_bootState hp script,
    fun _ script _ _ hp => run_keeps_outputsInRange (outputsInRange_bootState hp script)⟩

/-! ### Sign and zero -/

theorem ne_negZero_of_zeroOrInRange {b : F64} (h : ZeroOrInRange b) : b ≠ 0x8000000000000000#64 := by
  rintro rfl
  rcases h with h | ⟨h, -⟩
  · exact absurd h (by decide)
  · exact absurd h (by decide)

theorem exactResult_zero (m : ConvMode) (S C : ℚ) : exactResult m S C 0 = 0 := by
  cases m with
  | twoStep => rw [exactResult, zero_div, rne64_zero, realOf_zero, zero_mul]
  | fused => exact zero_mul _

section
variable (m : ConvMode) {S C x : ℚ} (hS : Within 0 15 S) (hC : Within 16 16 C) (hx : Within 0 15 x)
include hS hx

theorem exactResult_neg : exactResult m S C (-x) = -exactResult m S C x := by
  cases m with
  | twoStep =>
    rw [exactResult, neg_div, realOf_rne64_neg ((hx.div hS).abs_le_max (by decide)), neg_mul, exactResult]
  | fused => exact neg_mul _ _

variable (hS0 : 0 < S) (hC0 : 0 < C)
include hC hS0 hC0

theorem exactResult_pos (hx0 : 0 < x) : 0 < exactResult m S C x := by
  cases m with
  | twoStep => exact mul_pos (realOf_rne64_pos (hx.div hS) (by decide) (by decide) (div_pos hx0 hS0)) hC0
  | fused => exact mul_pos hx0 (realOf_rne64_pos (hC.div hS) (by decide) (by decide) (div_pos hC0 hS0))

theorem exactResult_lt_zero (hx0 : x < 0) : exactResult m S C x < 0 := by
  have hpos := exactResult_pos m hS hC hx.neg hS0 hC0 (neg_pos.2 hx0)
  rw [exactResult_neg m hS hx] at hpos
  exact neg_pos.1 hpos

end

/-- Settles O46: the exact result has the sign of the count and is odd in it, and rounding keeps both. -/
theorem signAndZero : Obligations.SignAndZero := by
  intro g p fs r hp hr
  have hS := within_sensOf hp g fs
  have hC := within_constOf hp g
  have hx := within_count hr
  have hS0 := sensOf_pos hp g fs
  have hC0 := constOf_pos hp g
  set y := exactResult p.convMode (realOf (sensOf g p fs)) (realOf (constOf g p)) r with hy
  have hcvt : cvt g p fs r = rne64 y := cvt_eq_rne64 hp g fs hr
  have hwithin : Within 31 31 y := within_exactResult _ hS hC hx
  have hpos (h : 0 < r) : 0 < y := exactResult_pos _ hS hC hx hS0 hC0 (by exact_mod_cast h)
  have hneg (h : r < 0) : y < 0 := exactResult_lt_zero _ hS hC hx hS0 hC0 (by exact_mod_cast h)
  refine ⟨?_, ne_negZero_of_zeroOrInRange (zeroOrInRange_cvt hp g fs hr), fun h => ?_, fun h => ?_, fun h => ?_⟩
  · rw [cvt_eq_rne64 hp g fs ⟨by decide, by decide⟩, Int.cast_zero, exactResult_zero, rne64_zero]
  · exact hcvt ▸ realOf_rne64_pos hwithin (by decide) (by decide) (hpos h)
  · exact hcvt ▸ realOf_rne64_lt_zero hwithin (by decide) (by decide) (hneg h)
  · have hmax := hwithin.abs_le_max (by decide)
    have hopposite : cvt g p fs (-r) = rne64 (-y) := by
      have hcount : IsCount (-r) := ⟨by have := hr.2; omega, by omega⟩
      rw [cvt_eq_rne64 hp g fs hcount, Int.cast_neg, exactResult_neg _ hS hx]
    rw [hopposite, hcvt]
    refine ⟨realOf_rne64_neg hmax, fun hr0 => (rne64_neg hmax ?_).1⟩
    rcases lt_or_gt_of_ne hr0 with h | h
    · exact (hneg h).ne
    · exact (hpos h).ne'

/-! ### Power-of-two sensitivities -/

/-- A denoted real of moderate magnitude over a moderate power of two is rounded exactly. -/
theorem realOf_rne64_div_two_pow {b : F64} (h : Within 64 64 (realOf b)) {k : Nat} (hk : k ≤ 64) :
    realOf (rne64 (realOf b / 2 ^ k)) = realOf b / 2 ^ k := by
  have hpow : Within 0 64 ((2 : ℚ) ^ k) := by
    rw [Within, abs_of_pos (by positivity)]
    exact .inr ⟨by simpa using one_le_pow₀ (one_le_two (α := ℚ)), pow_le_pow_right₀ one_le_two hk⟩
  exact realOf_rne64 ((h.div hpow).abs_le_max (by decide)) (representable_div_two_pow h hk)

section
variable {p : Params} (hp : legalParams p = true) (g : Group) {fs : BitVec 2}
include hp

/-- A sensitivity that is a power of two is at most 2^15 (R8). -/
theorem exponent_le_of_isPowerOfTwo {k : Nat} (hk : IsPowerOfTwo (sensOf g p fs) k) : k ≤ 15 := by
  have hle := (sensOf_range hp g fs).2
  rw [hk, show (32768 : ℚ) = 2 ^ 15 by norm_num] at hle
  exact (pow_le_pow_iff_right₀ one_lt_two).1 hle

/-- With a power-of-two sensitivity neither mode rounds before the end: the quotient and the fused constant are exact. -/
theorem exactResult_of_isPowerOfTwo (m : ConvMode) {k : Nat} (hk : IsPowerOfTwo (sensOf g p fs) k) {r : Int}
    (hr : IsCount r) : exactResult m (realOf (sensOf g p fs)) (realOf (constOf g p)) r = r * realOf (constOf g p) / 2 ^ k := by
  have hk64 : k ≤ 64 := (exponent_le_of_isPowerOfTwo hp g hk).trans (by decide)
  have hcount := realOf_f64_count hr
  rw [hk]
  cases m with
  | twoStep =>
    have hexact := realOf_rne64_div_two_pow (b := f64 r) (hcount ▸ (within_count hr).mono (by decide) (by decide)) hk64
    rw [hcount] at hexact
    rw [exactResult, hexact, div_mul_eq_mul_div]
  | fused =>
    rw [exactResult, realOf_rne64_div_two_pow ((within_constOf hp g).mono (by decide) (by decide)) hk64, mul_div_assoc]

/-- Where the sensitivity is the count, the exact result is the constant: the quotient is 1, or the power of two cancels. -/
theorem exactResult_of_sensOf_eq {r : Int} (hr : IsCount r) (hS : realOf (sensOf g p fs) = r)
    (h : p.convMode = .twoStep ∨ ∃ k, IsPowerOfTwo (sensOf g p fs) k) :
    exactResult p.convMode (realOf (sensOf g p fs)) (realOf (constOf g p)) r = realOf (constOf g p) := by
  have h0 := (sensOf_pos hp g fs).ne'
  rcases h with hm | ⟨k, hk⟩
  · have hone : realOf (rne64 1) = 1 := by decide +kernel
    rw [hm, exactResult, ← hS, div_self h0, hone, one_mul]
  · rw [exactResult_of_isPowerOfTwo hp g _ hk hr, ← hS, hk, mul_div_cancel_left₀ _ (by positivity)]

/-- Where the sensitivity is the count, the conversion is the constant bit for bit (R127). -/
theorem cvt_of_sensOf_eq {r : Int} (hr : IsCount r) (hS : realOf (sensOf g p fs) = r)
    (h : p.convMode = .twoStep ∨ ∃ k, IsPowerOfTwo (sensOf g p fs) k) : cvt g p fs r = constOf g p := by
  rw [cvt_eq_rne64 hp g fs hr, exactResult_of_sensOf_eq hp g hr hS h]
  exact rne64_realOf (constOf_pos hp g).ne' ((within_constOf hp g).mono (by decide) (by decide))

/-- With a power-of-two sensitivity the conversion is the same in every mode (R129). -/
theorem cvt_mode_irrelevant {k : Nat} (hk : IsPowerOfTwo (sensOf g p fs) k) {r : Int} (hr : IsCount r) (m m' : ConvMode) :
    cvt g { p with convMode := m } fs r = cvt g { p with convMode := m' } fs r := by
  have hrounded (m : ConvMode) : cvt g { p with convMode := m } fs r = rne64 (r * realOf (constOf g p) / 2 ^ k) :=
    (cvt_eq_rne64 (p := { p with convMode := m }) hp g fs hr).trans
      (congrArg rne64 (exactResult_of_isPowerOfTwo (p := { p with convMode := m }) hp g m hk hr))
  rw [hrounded, hrounded]

end

/-- Settles O47, for the constant of each group. -/
theorem scaleCorrectness : Obligations.ScaleCorrectness :=
  fun _ _ _ hp hr => ⟨cvt_of_sensOf_eq hp .accel hr, cvt_of_sensOf_eq hp .gyro hr⟩

/-- The accelerometer sensitivities of this hardware are powers of two (R8). -/
theorem isPowerOfTwo_default_sensA (fs : BitVec 2) : ∃ k, IsPowerOfTwo (defaultParams.sensA.get fs) k := by
  obtain ⟨⟨h0, h1, h2, h3⟩, -⟩ := default_reals
  revert fs
  rw [forall_get_iff _ fun b => ∃ k, IsPowerOfTwo b k]
  exact ⟨⟨14, h0.trans (by norm_num)⟩, ⟨13, h1.trans (by norm_num)⟩, ⟨12, h2.trans (by norm_num)⟩,
    ⟨11, h3.trans (by norm_num)⟩⟩

/-- Settles O49: the modes agree, and this hardware's accelerometer table holds powers of two. -/
theorem fusedAgreesOnPowersOfTwo : Obligations.FusedAgreesOnPowersOfTwo := by
  refine ⟨fun p fs r k hp hr => ⟨fun hk => cvt_mode_irrelevant hp .accel hk hr _ _,
    fun hk => cvt_mode_irrelevant hp .gyro hk hr _ _⟩, fun fs r m u hr => ?_⟩
  obtain ⟨k, hk⟩ := isPowerOfTwo_default_sensA fs
  exact cvt_mode_irrelevant (p := { defaultParams with accelUnit := u }) defaultBuild.1 .accel hk hr m .twoStep

/-! ### What a conversion answers -/

section
variable {s : State}

theorem exec_convInstr_uninit (g : Group) (hs : s.drv = .uninit) :
    exec (convInstr g) s = .next (finish .notInitialized s) := by
  rw [exec_convInstr, convertGroup, if_pos hs, raise_eq]

theorem exec_convInstr_noData (g : Group) (hs : s.drv ≠ .uninit) (hl : (regs g s).loaded = false) :
    exec (convInstr g) s = .next (finish .noData s) := by
  rw [exec_convInstr, convertGroup, if_neg hs, if_pos hl, raise_eq]

/-- Past `UNINIT` the conversion of a loaded group writes its output file (R130, R131). -/
theorem exec_convInstr_loaded (g : Group) (hs : s.drv ≠ .uninit) (hl : (regs g s).loaded = true) :
    exec (convInstr g) s = .next (finish .ok (inSampling (writeOut g s))) := by
  rw [exec_convInstr, convertGroup, if_neg hs, if_neg (by simp [hl]), complete, writeOut_drv, enterSampling_of_ne hs]
  rfl

theorem exec_smp_uninit (hs : s.drv = .uninit) : exec .smp s = .next (finish .notInitialized s) := by
  rw [exec_smp, sampleBoth, if_pos hs, raise_eq]

theorem exec_smp_noData (hs : s.drv ≠ .uninit) (hf : s.accel.fresh = false ∨ s.gyro.fresh = false) :
    exec .smp s = .next (finish .noData s) := by
  rw [exec_smp, sampleBoth, if_neg hs, if_pos hf, raise_eq]

/-- Past `UNINIT` an SMP with both groups fresh takes one sample (R132). -/
theorem exec_smp_fresh (hs : s.drv ≠ .uninit) (hA : s.accel.fresh = true) (hG : s.gyro.fresh = true) :
    exec .smp s = .next (finish .ok (inSampling (clearBothFresh (writeOut .gyro (writeOut .accel s))))) := by
  rw [exec_smp, sampleBoth, if_neg hs, if_neg (by simp [hA, hG]), complete, clearBothFresh_drv, writeOut_drv, writeOut_drv,
    enterSampling_of_ne hs]
  rfl

/-- A word of a conversion's opcode with a bit of 63:8 set is no command (R77). -/
theorem cmdIssue_conversion_reserved {w : Word} (hop : w.toNat % 256 = 4 ∨ w.toNat % 256 = 5 ∨ w.toNat % 256 = 6)
    (hbits : w.toNat / 2 ^ 8 ≠ 0) (s : State) : cmdIssue w s = .next (finish .illegalCommand s) := by
  have hreserved : IsReserved w.toNat := .inr (.inr (.inr (.inr ⟨hop, hbits⟩)))
  obtain ⟨_, hwhy⟩ := (exists_illegal_iff w).2 hreserved
  exact cmdIssue_of_illegal hwhy s

theorem sampling_of_loaded (g : Group) (hi : Inv s) (hl : (regs g s).loaded = true) : s.drv = .sampling :=
  (groupOk_of_inv hi g).loaded_sampling hl

end

theorem converted_accel (s : State) :
    converted .accel s = ⟨cvtA s.params s.accel.fs s.accel.raw.x.toInt, cvtA s.params s.accel.fs s.accel.raw.y.toInt,
      cvtA s.params s.accel.fs s.accel.raw.z.toInt⟩ :=
  cvtTriple_eq_toInt ..

theorem converted_gyro (s : State) :
    converted .gyro s = ⟨cvtG s.params s.gyro.fs s.gyro.raw.x.toInt, cvtG s.params s.gyro.fs s.gyro.raw.y.toInt,
      cvtG s.params s.gyro.fs s.gyro.raw.z.toInt⟩ :=
  cvtTriple_eq_toInt ..

/-! ### The worked conversions -/

/-- R130's conversion: 4, 0 and -4 times `GRAV`, in either mode. -/
theorem cvtTriple_accel_example {p : Params} (hp : legalParams p = true)
    (hS : p.sensA.get 3#2 = 0x40A0000000000000#64) (hC : p.grav = 0x40239D013A92A305#64) (hu : p.accelUnit = .mps2) :
    cvtTriple .accel p 3#2 ⟨0x2000#16, 0x0000#16, 0xE000#16⟩ =
      ⟨0x40439D013A92A305#64, 0x0000000000000000#64, 0xC0439D013A92A305#64⟩ := by
  cases hm : p.convMode
  · simp only [cvtTriple, cvt, cvtA, if_pos hp, cvtALegal, hu, hm, hS, hC]
    decide +kernel
  · simp only [cvtTriple, cvt, cvtA, if_pos hp, cvtALegal, hu, hm, fusedKA, hS, hC]
    decide +kernel

/-- R131's conversion: one and minus one `DEG2RAD` for a count equal to the sensitivity, and the largest negative count. -/
theorem cvtTriple_gyro_example {p : Params} (hp : legalParams p = true)
    (hS : p.sensG.get 0#2 = 0x4060600000000000#64) (hC : p.deg2rad = 0x3F91DF46A2529D39#64) (hm : p.convMode = .twoStep) :
    cvtTriple .gyro p 0#2 ⟨0x0083#16, 0xFF7D#16, 0x8000#16⟩ =
      ⟨0x3F91DF46A2529D39#64, 0xBF91DF46A2529D39#64, 0xC011767FA477CE62#64⟩ := by
  simp only [cvtTriple, cvt, cvtG, if_pos hp, cvtGLegal, hm, hS, hC]
  decide +kernel

/-- Settles O21, by the conversion of group A. -/
theorem cvaMeaning : Obligations.CvaMeaning := by
  refine ⟨fun s hs hl => ?_, fun s hs hl => exec_convInstr_noData .accel hs hl, fun s hs => exec_convInstr_uninit .accel hs,
    fun s w hop hbits => cmdIssue_conversion_reserved (.inl hop) hbits s, fun s hi hl => sampling_of_loaded .accel hi hl,
    fun s hs hp hS hC hu hfs hl hraw => ?_⟩
  · rw [← converted_accel]
    exact exec_convInstr_loaded .accel hs hl
  · refine ⟨_, exec_convInstr_loaded .accel (by simp [hs]) hl, ?_⟩
    change cvtTriple .accel s.params s.accel.fs s.accel.raw = _
    rw [hfs, hraw]
    exact cvtTriple_accel_example hp hS hC hu

/-- Settles O22, by the conversion of group G. -/
theorem cvgMeaning : Obligations.CvgMeaning := by
  refine ⟨fun s hs hl => ?_, fun s hs hl => exec_convInstr_noData .gyro hs hl, fun s hs => exec_convInstr_uninit .gyro hs,
    fun s w hop hbits => cmdIssue_conversion_reserved (.inr (.inl hop)) hbits s,
    fun s hi hl => sampling_of_loaded .gyro hi hl, fun s hs hp hS hC hm hfs hl hraw => ?_⟩
  · rw [← converted_gyro]
    exact exec_convInstr_loaded .gyro hs hl
  · refine ⟨_, exec_convInstr_loaded .gyro (by simp [hs]) hl, ?_⟩
    change cvtTriple .gyro s.params s.gyro.fs s.gyro.raw = _
    rw [hfs, hraw]
    exact cvtTriple_gyro_example hp hS hC hm

/-- Settles O23, by the two conversions of one sample. -/
theorem smpMeaning : Obligations.SmpMeaning := by
  refine ⟨fun s hs hA hG => ?_, fun s hs hf => exec_smp_noData hs hf, fun s hs => exec_smp_uninit hs,
    fun s w hop hbits => cmdIssue_conversion_reserved (.inr (.inr hop)) hbits s,
    fun s hs hp hSA hCA hu hSG hCG hm hfsA hfsG hA hG hrawA hrawG => ?_⟩
  · rw [← converted_accel, ← converted_gyro]
    exact exec_smp_fresh hs hA hG
  · refine ⟨_, exec_smp_fresh (by simp [hs]) hA hG, ?_, ?_⟩
    · change cvtTriple .accel s.params s.accel.fs s.accel.raw = _
      rw [hfsA, hrawA]
      exact cvtTriple_accel_example hp hSA hCA hu
    · change cvtTriple .gyro s.params s.gyro.fs s.gyro.raw = _
      rw [hfsG, hrawG]
      exact cvtTriple_gyro_example hp hSG hCG hm

/-! ### After a sample -/

/-- A successful SMP took one sample of both groups. -/
theorem sampled_of_smp_ok {s t : State} (h : exec .smp s = .next t) (hok : t.err = .ok) :
    t = finish .ok (inSampling (clearBothFresh (writeOut .gyro (writeOut .accel s)))) := by
  rcases sampleBoth_cases h with ⟨-, rfl⟩ | ⟨-, -, rfl⟩ | ⟨-, -, -, rfl⟩
  · cases hok
  · cases hok
  · rfl

/-- `s` publishes, for group g of build `p`, the conversion of the counts `v` at the range `code`, and holds those counts and
that range still. -/
structure Publishes (g : Group) (p : Params) (code : BitVec 2) (v : Triple 16) (s : State) : Prop where
  drv : s.drv = .sampling
  params : s.params = p
  fs : (regs g s).fs = code
  raw : (regs g s).raw = v
  out : (regs g s).out = cvtTriple g p code v
  outv : (regs g s).outv = true

section
variable {s t : State} {e : HostEvent} {rest : List HostEvent} (hs : s.script = e :: rest) (hr : isReset e = false)
include hs hr

theorem not_exists_reset : ¬ ∃ e' rest', s.script = e' :: rest' ∧ isReset e' = true := by
  rintro ⟨e', rest', hs', hr'⟩
  obtain ⟨rfl, -⟩ := List.cons.inj (hs.symm.trans hs')
  rw [hr] at hr'
  cases hr'

/-- Only a reset leaves `SAMPLING` (R22). -/
theorem step_keeps_sampling (hd : s.drv = .sampling) (h : step s = .next t) : t.drv = .sampling := by
  rcases stateTransitions s t h with hdrv | ⟨hu, -⟩ | ⟨hc, -⟩ | ⟨-, hreset⟩
  · exact hdrv.trans hd
  · cases hd.symm.trans hu
  · cases hd.symm.trans hc
  · exact absurd hreset (not_exists_reset hs hr)

/-- Past `UNINIT` an action that is no reset moves no range (R23). -/
theorem step_keeps_fs (hd : s.drv ≠ .uninit) (h : step s = .next t) (g : Group) : (regs g t).fs = (regs g s).fs := by
  rcases step_block_cases h with ⟨hg, -⟩ | ⟨w, rest', i, -, -, heff⟩ | ⟨-, hreset⟩
  · rw [hg]
  · rw [effect_keeps_fs (s := { s with script := rest' }) hd heff, regs_withScript]
  · exact absurd hreset (not_exists_reset hs hr)

/-- An action that neither resets the block nor loads group g keeps the group's sample: a conversion writes it again alike. -/
theorem step_keeps_publishes {g : Group} {p : Params} {code : BitVec 2} {v : Triple 16} (hp : Publishes g p code v s)
    (he : loadsGroup g e = false) (h : step s = .next t) : Publishes g p code v t := by
  have hd : s.drv ≠ .uninit := by simp [hp.drv]
  have hload := (step_holds_load hd hs he hr h).load
  have hfile : (regs g t).out = cvtTriple g p code v ∧ (regs g t).outv = true := by
    obtain ⟨hfiles, -, -⟩ := stepKeepsWholeSamples s t h
    rcases hfiles g with ⟨hout, houtv⟩ | ⟨hout, houtv, -⟩ | ⟨-, -, hreset⟩
    · exact ⟨hout.trans hp.out, houtv.trans hp.outv⟩
    · rw [hp.params, hp.fs, hp.raw] at hout
      exact ⟨hout, houtv⟩
    · exact absurd hreset (not_exists_reset hs hr)
  exact ⟨step_keeps_sampling hs hr hp.drv h, (step_params h).trans hp.params, (step_keeps_fs hs hr hd h g).trans hp.fs,
    hload.raw.trans hp.raw, hfile.1, hfile.2⟩

end

theorem run_keeps_publishes {g : Group} {p : Params} {code : BitVec 2} {v : Triple 16} {s u : State}
    {part rest : List HostEvent} (hp : Publishes g p code v s) (hs : s.script = part ++ rest)
    (hno : ∀ e ∈ part, loadsGroup g e = false) (hr : ∀ e ∈ part, isReset e = false)
    (h : Host.Core.run core part.length s = .next u) : Publishes g p code v u :=
  (run_keeps (Q := fun e => loadsGroup g e = false ∧ isReset e = false)
    (fun _ _ _ _ hv hscript he => step_keeps_publishes hscript he.2 hv he.1) hp hs (fun e he => ⟨hno e he, hr e he⟩) h).1

/-- Settles O31: the sample leaves both groups stale, which no action of the run undoes; without a reset the run keeps what the
sample published. -/
theorem secondSampleHasNoData : Obligations.SecondSampleHasNoData := by
  intro g s t u between rest c hsmp hok hscript hno hrun hc
  have ht := sampled_of_smp_ok hsmp hok
  have hregs : regs g t = clearFresh (storeOut (converted g s) (regs g s)) := by
    rw [ht, regs_finish, regs_inSampling, regs_sample]
  obtain ⟨hstale, hrest⟩ := run_stays_stale (by rw [hregs, clearFresh_fresh]) hscript hno hrun
  refine ⟨hc ▸ exec_smp_stale hstale, hrest, fun hr => ?_⟩
  have hpub : Publishes g s.params (regs g s).fs (regs g s).raw t :=
    ⟨by rw [ht]; rfl, by rw [ht]; rfl, by rw [hregs]; rfl, by rw [hregs]; rfl, by rw [hregs]; rfl, by rw [hregs]; rfl⟩
  have hpub' := run_keeps_publishes hpub hscript hno hr hrun
  exact ⟨hpub'.drv, hpub'.out.trans hpub.out.symm, hpub'.outv⟩

end Sys2Proof.Proofs

namespace Sys2Proof.Proofs

/-!
The exception statements (spec 60_exceptions R150 to R161): the code a command ends with and what a failed one writes, reset as
the block's answer to a reset action, and `sample()` in `UNINIT`.
-/

open Sys2Proof.Machine Sys2Proof.Laws

/-! ### The code a command ends with -/

/-- The code of a load with bus status `bst` in driver state `d` (R100, R156). -/
def loadCode (bst : Byte) (d : DriverState) : ErrCode :=
  if busStatusOk bst = false then .illegalCommand
  else if d = .uninit then .notInitialized
  else if bst = 0x01#8 then .busAddr
  else if bst = 0x02#8 then .busRead
  else .ok

/-- The code of a conversion or a sample in driver state `d` (R130 to R132, R156). -/
def dataCode (d : DriverState) (missing : Prop) [Decidable missing] : ErrCode :=
  if d = .uninit then .notInitialized else if missing then .noData else .ok

/-- The code of a command issued in `s`, in the order of R156. -/
def resultCode (s : State) : Instr → ErrCode
  | .cfg _ _ => if s.drv = .uninit then .ok else .configLocked
  | .lda bst _ _ _ _ _ _ => loadCode bst s.drv
  | .ldg bst _ _ _ _ _ _ => loadCode bst s.drv
  | .cva => dataCode s.drv (s.accel.loaded = false)
  | .cvg => dataCode s.drv (s.gyro.loaded = false)
  | .smp => dataCode s.drv (s.accel.fresh = false ∨ s.gyro.fresh = false)

section
variable {s t : State}

theorem err_of_configure {afs gfs : BitVec 2} (h : configure afs gfs s = .next t) :
    t.err = if s.drv = .uninit then .ok else .configLocked := by
  rcases configure_cases h with ⟨hs, rfl⟩ | ⟨hs, rfl⟩ <;> simp [hs]

theorem err_of_loadGroup {g : Group} {bst : Byte} {v : Triple 16} (h : loadGroup g bst v s = .next t) :
    t.err = loadCode bst s.drv := by
  unfold loadCode
  rcases loadGroup_cases h with ⟨hb, rfl⟩ | ⟨hb, hs, rfl⟩ | ⟨hs, rfl, rfl⟩ | ⟨hs, rfl, rfl⟩ | ⟨hs, h1, h2, hb, rfl⟩
  · simp [hb]
  · simp [hb, hs]
  · simp [hs, busStatusOk]
  · simp [hs, busStatusOk]
  · simp [hs, h1, h2, hb]

theorem err_of_convertGroup {g : Group} (h : convertGroup g s = .next t) :
    t.err = dataCode s.drv ((regs g s).loaded = false) := by
  unfold dataCode
  rcases convertGroup_cases h with ⟨hs, rfl⟩ | ⟨hs, hl, rfl⟩ | ⟨hs, hl, rfl⟩
  · simp [hs]
  · simp [hs, hl]
  · simp [hs, hl]

theorem err_of_sampleBoth (h : sampleBoth s = .next t) :
    t.err = dataCode s.drv (s.accel.fresh = false ∨ s.gyro.fresh = false) := by
  unfold dataCode
  rcases sampleBoth_cases h with ⟨hs, rfl⟩ | ⟨hs, hf, rfl⟩ | ⟨hs, hA, hG, rfl⟩
  · simp [hs]
  · simp [hs, hf]
  · simp [hs, hA, hG]

/-- A command ends with the code its operands and the state select. -/
theorem err_of_exec {i : Instr} (h : exec i s = .next t) : t.err = resultCode s i := by
  cases i with
  | cfg => exact err_of_configure h
  | lda => exact err_of_loadGroup (g := .accel) h
  | ldg => exact err_of_loadGroup (g := .gyro) h
  | cva => exact err_of_convertGroup (g := .accel) h
  | cvg => exact err_of_convertGroup (g := .gyro) h
  | smp => exact err_of_sampleBoth h

end

/-- The bus status of a decoded load is legal, so its code is never `ILLEGAL_COMMAND`. -/
theorem loadCode_of_busStatusOk {bst : Byte} (hb : busStatusOk bst = true) (d : DriverState) : loadCode bst d =
    if d = .uninit then .notInitialized else if bst = 1#8 then .busAddr else if bst = 2#8 then .busRead else .ok :=
  if_neg (by simp [hb])

/-- Settles O26: a word that decodes carries a legal bus status, and the code of its command is selected in R156's order. -/
theorem errorPriority : Obligations.ErrorPriority := by
  intro s t w rest hs h
  have hc : cmdIssue w { s with script := rest } = .next t := (step_of_script hs).symm.trans h
  cases hd : decode w with
  | illegal why =>
    rw [cmdIssue_of_illegal hd] at hc
    obtain rfl := Host.Outcome.next.inj hc
    rfl
  | command i =>
    rw [cmdIssue_of_decode hd] at hc
    have hwf := (encodeOfDecode w i hd).1
    have herr := err_of_exec hc
    cases i with
    | cfg => exact herr
    | lda => exact herr.trans (loadCode_of_busStatusOk hwf _)
    | ldg => exact herr.trans (loadCode_of_busStatusOk hwf _)
    | cva => exact herr
    | cvg => exact herr
    | smp => exact herr

/-! ### What a failed command writes -/

/-- The two bus errors (R150). -/
def IsBusError (c : ErrCode) : Prop := c = .busAddr ∨ c = .busRead

theorem not_isBusError_dataCode (d : DriverState) (missing : Prop) [Decidable missing] :
    ¬ IsBusError (dataCode d missing) := by
  unfold dataCode IsBusError
  split_ifs <;> decide

/-- A load reports a bus error past `UNINIT` only, the one its bus status names (R103). -/
theorem loadCode_busError {bst : Byte} {d : DriverState} {c : ErrCode} (h : c = loadCode bst d) (hc : IsBusError c) :
    d ≠ .uninit ∧ (bst.toNat = 1 ∧ c = .busAddr ∨ bst.toNat = 2 ∧ c = .busRead) := by
  unfold loadCode at h
  rcases hc with rfl | rfl
  · split_ifs at h with hres huninit haddr
    exact ⟨huninit, .inl ⟨by rw [haddr]; rfl, rfl⟩⟩
  · split_ifs at h with hres huninit haddr hread
    exact ⟨huninit, .inr ⟨by rw [hread]; rfl, rfl⟩⟩

/-- Only a load ends in a bus error, and then it clears `FRESH` of its group (R103, R152). -/
theorem exec_busError {i : Instr} {s t : State} (h : exec i s = .next t) (hbus : IsBusError t.err) :
    ∃ g bst d0 d1 d2 d3 d4 d5, i = loadInstr g bst d0 d1 d2 d3 d4 d5 ∧
      t = finish t.err (setRegs g (clearFresh (regs g s)) s) := by
  have of_load {g : Group} {bst d0 d1 d2 d3 d4 d5 : Byte} (hi : i = loadInstr g bst d0 d1 d2 d3 d4 d5)
      (herr : t.err = loadCode bst s.drv) : t = finish t.err (setRegs g (clearFresh (regs g s)) s) := by
    obtain ⟨hs, hb⟩ := loadCode_busError herr hbus
    exact Host.Outcome.next.inj (h.symm.trans (hi ▸ exec_load_failed g hs hb))
  have herr := err_of_exec h
  cases i with
  | cfg =>
    rw [herr, resultCode] at hbus
    split_ifs at hbus <;> simp [IsBusError] at hbus
  | lda => exact ⟨.accel, _, _, _, _, _, _, _, rfl, of_load rfl herr⟩
  | ldg => exact ⟨.gyro, _, _, _, _, _, _, _, rfl, of_load rfl herr⟩
  | cva | cvg | smp => exact absurd (herr ▸ hbus) (not_isBusError_dataCode _ _)

/-- Settles O25: of the effects that end with an error, a rejection writes the code alone, and a bus error is a load's. -/
theorem failedCommandWritesOnlyErr : Obligations.FailedCommandWritesOnlyErr := by
  intro i s t h hfail
  refine ⟨fun haddr hread => ?_, fun hbus => ?_⟩
  · cases effect_of_exec h with
    | rejected => rfl
    | busError _ _ _ _ _ _ _ _ _ _ hc =>
      rcases hc with ⟨-, rfl⟩ | ⟨-, rfl⟩
      · exact absurd rfl haddr
      · exact absurd rfl hread
    | configured | loaded | converted | sampled => exact absurd rfl hfail
  · obtain ⟨g, bst, d0, d1, d2, d3, d4, d5, rfl, ht⟩ := exec_busError h hbus
    cases g
    · exact .inl ⟨bst, d0, d1, d2, d3, d4, d5, rfl, ht⟩
    · exact .inr ⟨bst, d0, d1, d2, d3, d4, d5, rfl, ht⟩

/-! ### The last answer is not read -/

section
variable (s : State) (c : ErrCode) (r : Response)

/-- Every branch ends in `finish`, which overwrites both, and no test looks at them. -/
theorem loadGroup_withAnswer (g : Group) (bst : Byte) (v : Triple 16) :
    loadGroup g bst v { s with err := c, resp := r } = loadGroup g bst v s := by
  cases g <;> rfl

theorem convertGroup_withAnswer (g : Group) : convertGroup g { s with err := c, resp := r } = convertGroup g s := by
  cases g <;> rfl

end

/-- Settles O27: each command ends in `finish`, which overwrites both, and reads neither before. -/
theorem lastErrorIsNeverRead : Obligations.LastErrorIsNeverRead := by
  intro i s c r
  cases i with
  | cfg => rfl
  | lda => exact loadGroup_withAnswer s c r .accel _ _
  | ldg => exact loadGroup_withAnswer s c r .gyro _ _
  | cva => exact convertGroup_withAnswer s c r .accel
  | cvg => exact convertGroup_withAnswer s c r .gyro
  | smp => rfl

/-! ### Reset -/

/-- A reset is answered alike with a command in flight and without (R161, R181). -/
theorem hostAction_of_isReset {e : HostEvent} (he : isReset e = true) (s : State) : hostAction e s = resetBlock s := by
  cases e with
  | reset => rfl
  | resetInFlight => rfl
  | cmd | read | overlap => cases he

/-- Settles O15: the step is the block's reset. -/
theorem resetAbandonsCommand : Obligations.ResetAbandonsCommand :=
  fun _ _ _ hs he =>
    ⟨_, (step_of_script hs).trans (hostAction_of_isReset he _), ⟨rfl, rfl, rfl, rfl⟩, rfl, rfl, rfl⟩

/-! ### The host's `sample()` before `initialize()` -/

/-- The host reads `STATE` in bits 1:0 of `STATUS` (R31). -/
theorem status_state (s : State) : (regRead s 0#8).extractLsb' 0 2 = driverCode s.drv := by
  have hstatus : (regRead s 0#8).toNat = _ := statusWord_toNat s
  have hcode : (driverCode s.drv).toNat < 4 := BitVec.isLt _
  apply BitVec.eq_of_toNat_eq
  rw [BitVec.extractLsb'_toNat, Nat.shiftRight_zero, hstatus]
  omega

/-- Settles O55: the host's first test reads `UNINIT`. -/
theorem sampleBeforeInit : Obligations.SampleBeforeInit :=
  fun _ _ s hs => if_pos ((status_state s).trans (by rw [hs]; rfl))

end Sys2Proof.Proofs

namespace Sys2Proof.Proofs

/-!
The reset and hazard statements (spec 70_reset_and_hazards R180 to R189): what a step answers to each action of the host, the
boot states, and the host's `sample()` past `UNINIT`.
-/

open Sys2Proof.Machine Sys2Proof.Laws

/-! ### Which actions a step answers -/

/-- Settles O16: with an empty script there is no next action. -/
theorem idleBlockWaits : Obligations.IdleBlockWaits := by
  intro s hs
  simp only [step, nextAction, hs]

/-- The block reacts to every action but a second issue with a next state (R188, R189). -/
theorem hostAction_completes {e : HostEvent} (he : ∀ w v, e ≠ .overlap w v) (s : State) :
    Completes (hostAction e s) := by
  cases e with
  | cmd w =>
    obtain ⟨t, ht, -⟩ := cmdIssue_completes w s
    exact ⟨t, ht⟩
  | read => exact ⟨_, rfl⟩
  | reset => exact ⟨_, rfl⟩
  | resetInFlight => exact ⟨_, rfl⟩
  | overlap w v => exact absurd rfl (he w v)

/-- Settles O17: a step waits or reacts to the next action, and only the overlapping issue is refused. -/
theorem everyActionCompletesButOverlap : Obligations.EveryActionCompletesButOverlap := by
  refine fun s => ⟨fun hno => ?_, fun ⟨_, _, _, hs⟩ => step_of_script hs⟩
  cases hs : s.script with
  | nil => exact ⟨s, idleBlockWaits s hs⟩
  | cons e rest =>
    rw [step_of_script hs]
    exact hostAction_completes (fun w v he => hno w v rest (he ▸ hs)) _

/-! ### The boot states -/

/-- The state after reset is the boot state of this hardware's build, with nothing issued (R8, R180). -/
theorem bootState_default : bootState defaultParams [] = State.reset := rfl

section
variable (p : Params) (script : List HostEvent)

@[simp] theorem regs_bootState (g : Group) : regs g (bootState p script) = GroupRegs.reset := by
  cases g <;> rfl

/-- No piece of state that `STATUS` shows is a build parameter, so it reads as after reset (R31, R180). -/
theorem status_bootState : regRead (bootState p script) 0#8 = 0x0000000000000000#64 :=
  statusPacking.1

theorem inv_bootState : Inv (bootState p script) where
  accel := groupOk_reset
  gyro := groupOk_reset
  sampling_loaded hd := by cases hd
  resp_err _ hc := by cases hc

/-- No output file is written at boot. -/
theorem outputsAreConversions_bootState : OutputsAreConversions (bootState p script) := by
  intro g hv
  rw [regs_bootState] at hv
  cases hv

end

/-- With both ranges 0, `CONFIG` shows the build alone (R32, R180). -/
theorem config_of_zero_ranges {s : State} (hA : s.accel.fs = 0#2) (hG : s.gyro.fs = 0#2) : (regRead s 1#8).toNat =
    2 ^ 4 * (unitBit s.params.accelUnit).toNat + 2 ^ 5 * (modeBit s.params.convMode).toNat :=
  (configWord_toNat s).trans (by simp [hA, hG])

/-- Settles O14: each state is a boot state, whose registers are the reset values. -/
theorem resetValues : Obligations.ResetValues := by
  refine ⟨fun s hs => ?_, rfl⟩
  obtain ⟨p, script, rfl⟩ : ∃ p script, s = bootState p script :=
    hs.elim (fun h => ⟨_, _, h.trans bootState_default.symm⟩) id
  refine ⟨rfl, rfl, fun g => ?_, status_bootState p script, (config_of_zero_ranges rfl rfl).trans ?_⟩
  · rw [regs_bootState]
    exact ⟨rfl, rfl, rfl, rfl, rfl, rfl⟩
  · congr
    · cases (bootState p script).params.accelUnit <;> rfl
    · cases (bootState p script).params.convMode <;> rfl

/-- Settles O50: the reset values meet both invariants. -/
theorem invariantsAtReset : Obligations.InvariantsAtReset :=
  fun p script => ⟨inv_bootState p script, outputsAreConversions_bootState p script, bootState_default⟩

/-! ### The host's `sample()` past `UNINIT` -/

/-- The failed read that a load reports as bus error `c` (R75). -/
def failedRead (c : ErrCode) : BusRead := if c = .busAddr then .addressWriteFailed else .readFailed

theorem ne_ok_of_isBusError {c : ErrCode} (hc : IsBusError c) : c ≠ .ok := by
  rcases hc with rfl | rfl <;> decide

/-- What a successful load of the counts `v` into group g leaves. -/
def afterGoodLoad (g : Group) (v : Triple 16) (s : State) : State :=
  finish .ok (inSampling (setRegs g (storeRaw v (regs g s)) s))

theorem afterGoodLoad_drv_ne_uninit {g : Group} {v : Triple 16} {s : State} : (afterGoodLoad g v s).drv ≠ .uninit := by
  simp [afterGoodLoad]

section
variable {s : State} (hs : s.drv ≠ .uninit) (g : Group)
include hs

/-- Past `UNINIT` the host's first test lets it go on. -/
theorem status_state_ne_uninit : (regRead s 0#8).extractLsb' 0 2 ≠ 0#2 := by
  rw [status_state]
  cases hd : s.drv with
  | uninit => exact absurd hd hs
  | configured | sampling => decide

/-- The host's load after a good read stores the three pairs, the first byte of each above (R184). -/
theorem issue_busLoad_ok (d0 d1 d2 d3 d4 d5 : Byte) : issue (encode (busLoad g (.ok d0 d1 d2 d3 d4 d5))) s =
    afterGoodLoad g ⟨d0 ++ d1, d2 ++ d3, d4 ++ d5⟩ s := by
  rw [← decodeAxes_eq_appends]
  exact issue_eq (cmdIssue_good_load g d0 d1 d2 d3 d4 d5 hs)

/-- The host's load after a failed read answers its bus error and only clears `FRESH` (R103, R184). -/
theorem issue_busLoad_failed {c : ErrCode} (hc : IsBusError c) :
    issue (encode (busLoad g (failedRead c))) s = finish c (setRegs g (clearFresh (regs g s)) s) := by
  apply issue_eq
  rcases hc with rfl | rfl
  · exact (cmdIssue_of_decode (decode_encode_loadInstr g rfl ..) s).trans (exec_load_failed g hs (.inl ⟨rfl, rfl⟩))
  · exact (cmdIssue_of_decode (decode_encode_loadInstr g rfl ..) s).trans (exec_load_failed g hs (.inr ⟨rfl, rfl⟩))

/-- The host's SMP with both groups fresh takes one sample (R132). -/
theorem issue_smp_fresh (hA : s.accel.fresh = true) (hG : s.gyro.fresh = true) : issue (encode .smp) s =
    finish .ok (inSampling (clearBothFresh (writeOut .gyro (writeOut .accel s)))) :=
  issue_eq ((cmdIssue_of_decode (decode_encode rfl) s).trans (exec_smp_fresh hs hA hG))

end

section
variable {s a g m : State} {readA readG : BusRead} {c : ErrCode} (hs : s.drv ≠ .uninit)
  (ha : issue (encode (busLoad .accel readA)) s = a) (hg : issue (encode (busLoad .gyro readG)) a = g)
include hs ha

/-- `sample()` stops at an error of LDA. -/
theorem driverSample_lda_error (hc : a.err = c) (hne : c ≠ .ok) : driverSample readA readG s = ⟨a, .error c, 1⟩ := by
  subst hc
  simp only [driverSample, if_neg (status_state_ne_uninit hs), ha, if_pos hne]

include hg

/-- `sample()` stops at an error of LDG. -/
theorem driverSample_ldg_error (hok : a.err = .ok) (hc : g.err = c) (hne : c ≠ .ok) :
    driverSample readA readG s = ⟨g, .error c, 2⟩ := by
  subst hc
  simp only [driverSample, if_neg (status_state_ne_uninit hs), ha, hg, if_neg (not_not.2 hok), if_pos hne]

/-- `sample()` reads the sample when all three commands succeed. -/
theorem driverSample_ok (hm : issue (encode .smp) g = m) (hA : a.err = .ok) (hG : g.err = .ok) (hM : m.err = .ok) :
    driverSample readA readG s = ⟨m, .ok (readSample m), 2⟩ := by
  simp only [driverSample, if_neg (status_state_ne_uninit hs), ha, hg, hm, if_neg (not_not.2 hA), if_neg (not_not.2 hG),
    if_neg (not_not.2 hM)]

end

/-- Settles O56: two good loads leave both groups fresh, and SMP converts the bytes they stored. -/
theorem sampleReturnsBothGroups : Obligations.SampleReturnsBothGroups := by
  intro s a0 a1 a2 a3 a4 a5 g0 g1 g2 g3 g4 g5 hs
  exact ⟨_, driverSample_ok hs (issue_busLoad_ok hs .accel a0 a1 a2 a3 a4 a5)
    (issue_busLoad_ok afterGoodLoad_drv_ne_uninit .gyro g0 g1 g2 g3 g4 g5)
    (issue_smp_fresh afterGoodLoad_drv_ne_uninit rfl rfl) rfl rfl rfl, rfl, rfl, rfl, rfl⟩

/-- Settles O57: a failed load clears `FRESH` alone, and the load before it writes no output file. -/
theorem sampleStopsAtFirstError : Obligations.SampleStopsAtFirstError := by
  intro s a g c hs hc
  have hne := ne_ok_of_isBusError hc
  constructor
  · rintro rfl
    exact ⟨_, driverSample_lda_error hs (issue_busLoad_failed hs .accel hc) rfl hne, rfl, rfl⟩
  · rintro d0 d1 d2 d3 d4 d5 rfl rfl
    exact ⟨_, driverSample_ldg_error hs (issue_busLoad_ok hs .accel d0 d1 d2 d3 d4 d5)
      (issue_busLoad_failed afterGoodLoad_drv_ne_uninit .gyro hc) rfl rfl hne, rfl, rfl, rfl⟩

end Sys2Proof.Proofs

namespace Sys2Proof.Proofs

/-!
The two internal paths of the converter (spec 42_convert R128): subtracting `k` from the exponent field of a pattern divides its
real by `2^k`, so the shift path is exact, and the division, which rounds that same real, gives its bits.
-/

open Sys2Proof.Machine Sys2Proof.Laws

/-- A pattern whose exponent field loses `k` and stays positive keeps its sign and its significand. -/
theorem sub_exponent_eq_mk {b : F64} {k : Nat} (hk : k < expOf b) : b - BitVec.ofNat 64 (k * 2 ^ 52) =
    BitVec.ofBool (signOf b) ++ BitVec.ofNat 63 (((expOf b : Int) - 1075 - k + 1074).toNat * 2 ^ 52 + sigOf b) := by
  have hexp : expOf b < 2 ^ 11 := BitVec.isLt _
  have hfrac : fracOf b < 2 ^ 52 := BitVec.isLt _
  have hsig := sigOf_of_normal (Nat.zero_lt_of_lt hk)
  have hfields := toNat_eq_fields b
  have hsub : (BitVec.ofNat 64 (k * 2 ^ 52)).toNat = k * 2 ^ 52 := by
    rw [BitVec.toNat_ofNat]
    omega
  apply BitVec.eq_of_toNat_eq
  rw [toNat_mk _ (by omega), BitVec.toNat_sub_of_le (by rw [BitVec.le_def]; omega), hsub]
  omega

/-- Subtracting `k` from the exponent field divides by `2^k`, as long as the field stays positive. -/
theorem realOf_sub_exponent {b : F64} {k : Nat} (hk : k < expOf b) :
    realOf (b - BitVec.ofNat 64 (k * 2 ^ 52)) = realOf b / 2 ^ k := by
  have hexp : expOf b < 2 ^ 11 := BitVec.isLt _
  have hfrac : fracOf b < 2 ^ 52 := BitVec.isLt _
  have hsig := sigOf_of_normal (Nat.zero_lt_of_lt hk)
  rw [sub_exponent_eq_mk hk, realOf_mk _ (by omega) (by omega) (.inl (by omega)) (by omega), realOf_eq b,
    max_eq_left (by omega : 1 ≤ expOf b), zpow_sub₀ two_ne_zero _ (k : Int), zpow_natCast, mul_div_assoc, mul_div_assoc]

theorem within_two_pow {k b : Nat} (hk : k ≤ b) : Within 0 b ((2 : ℚ) ^ k) := by
  rw [Within, abs_of_pos (by positivity)]
  exact .inr ⟨by simpa using one_le_pow₀ (one_le_two (α := ℚ)), pow_le_pow_right₀ one_le_two hk⟩

/-- The division of a count is the correctly rounded quotient. -/
theorem divR_f64_count {S : F64} (hS : realOf S ≠ 0) {r : Int} (hr : IsCount r) :
    divR (f64 r) S = rne64 (r / realOf S) := by
  rw [divR_eq_rne64 _ hS, realOf_f64_count hr]

section
variable {r : Int} (hr : IsCount r) {k : Nat} (hk : k ≤ 15)
include hr hk

/-- The shift path is exact: a nonzero count is far above the subnormals, and zero stays zero (log 22). -/
theorem realOf_shiftQuot : realOf (shiftQuot r k) = r / 2 ^ k := by
  rcases eq_or_ne r 0 with rfl | h0
  · rw [shiftQuot, if_pos rfl, realOf_zero, Int.cast_zero, zero_div]
  · have hreal := realOf_f64_count hr
    have hnormal : 959 ≤ expOf (f64 r) := (normal_of_within (by rw [hreal]; exact_mod_cast h0)
      (hreal ▸ (within_count hr).mono (by decide) (by decide))).1
    rw [shiftQuot, if_neg h0, realOf_sub_exponent (by omega), hreal]

/-- The exact quotient is rounded to the bits of the shift path. -/
theorem rne64_count_div_two_pow : rne64 (r / 2 ^ k) = shiftQuot r k := by
  rcases eq_or_ne r 0 with rfl | h0
  · rw [shiftQuot, if_pos rfl, Int.cast_zero, zero_div, rne64_zero]
  · have hquot : Within 64 64 ((r : ℚ) / 2 ^ k) := ((within_count hr).div (within_two_pow hk)).mono (by decide) (by decide)
    have hne : (r : ℚ) / 2 ^ k ≠ 0 := div_ne_zero (by exact_mod_cast h0) (by positivity)
    rw [← realOf_shiftQuot hr hk] at hquot hne ⊢
    exact rne64_realOf hne hquot

end

/-- Settles O48: the division rounds the exact quotient, which for a power of two is the real of the shift path. -/
theorem shiftPathIsDivision : Obligations.ShiftPathIsDivision := by
  refine ⟨fun S k r hk hS hr => ⟨?_, realOf_shiftQuot hr hk⟩, fun S r hS hr => ?_⟩
  · have hreal : realOf S = 2 ^ k := hS
    rw [divR_f64_count (hreal ▸ by positivity) hr, hreal, rne64_count_div_two_pow hr hk]
  · have hpos : 0 < realOf S := one_pos.trans_le ((sensOk_iff S).1 hS).1
    exact divR_f64_count hpos.ne' hr

end Sys2Proof.Proofs
